-- ==== Sys2Proof/Word.lean ====
section
/-! DEFINITION. The value types of XJE (00_scope.md R5, R7 to R9; 10_state.md R21 to R25). -/

namespace Sys2Proof

/-- One byte of the string buffer (20_memory.md R50). -/
abbrev Byte := BitVec 8

/-- A command word (30_encoding.md R70). -/
abbrev CmdWord := BitVec 64

/-- A polynomial over GF(2) of degree at most 255; bit `k` is the coefficient of `x^k` (00_scope.md R8). -/
abbrev Poly := BitVec 256

/-- An unsigned integer in `[0, 2^128)` (00_scope.md R9). -/
abbrev U128 := BitVec 128

/-- A generator state: 128 bits XJE never interprets (10_state.md R25). -/
abbrev Gen := BitVec 128

/-- The 32-bit data of a response, and the width of `STATUS`, `ERRINFO` and an immediate (30_encoding.md R73, R74). -/
abbrev Data := BitVec 32

/-- A string of bytes, first character first (20_memory.md R60). -/
abbrev Text := List Byte

/-- Index of a polynomial register `P0..P7` (10_state.md R21). -/
abbrev PReg := Fin 8

/-- Index of an integer register `U0..U3` (10_state.md R23). -/
abbrev UReg := Fin 4

/-- A limb or word index as the `ix` field carries it; all 16 values are well-formed (30_encoding.md R73). -/
abbrev Index := BitVec 4

end Sys2Proof
end

