-- ==== Sys2Proof/Syntax.lean ====
section
/-! DEFINITION. The 37 commands (30_encoding.md R75): one constructor per row of spec/opcode_table.json. A register
index is a number of its file (R71), so a word whose index lies beyond the file has no term here. -/

namespace Sys2Proof

/-- A command. `imm` is the whole unsigned 32-bit immediate (30_encoding.md R73), `ix` the 4-bit index. -/
inductive Instr where
  -- system (40_system.md)
  | nop
  | statrd
  | inford
  | errclr
  -- polynomial unit (42_gf2poly.md)
  | pclr (rd : PReg)
  | pseti (rd : PReg) (imm : Data)
  | pldc (rd : PReg)
  | pwl (rd : PReg) (ix : Index) (imm : Data)
  | prl (ra : PReg) (ix : Index)
  | padd (rd ra rb : PReg)
  | pshu (rd ra : PReg) (imm : Data)
  | pshd (rd ra : PReg) (imm : Data)
  | pdeg (ra : PReg)
  | pmul (rd ra rb : PReg)
  | psqr (rd ra : PReg)
  | pred (rd ra rb : PReg)
  | ppow (rd ra : PReg) (rb : UReg) (ix : PReg)
  -- integer unit (41_biguint128.md)
  | ufrom32 (rd : UReg) (imm : Data)
  | uwl (rd : UReg) (ix : Index) (imm : Data)
  | url (ra : UReg) (ix : Index)
  | umul (rd ra rb : UReg)
  -- codec and string buffer (43_codec.md)
  | sbwr (imm : Data)
  | sbrd (imm : Data)
  | slenw (imm : Data)
  | slenr
  | uparse (rd : UReg)
  | ufmt (ra : UReg)
  | pparse (rd : PReg)
  | pfmt (ra : PReg)
  -- jump engine (44_jump.md)
  | gww (ix : Index) (imm : Data)
  | grw (ix : Index)
  | arw (ix : Index)
  | gstep
  | gapply (ra : PReg)
  | jcomp (imm : Data)
  | japply
  | jump (imm : Data)
  deriving DecidableEq, Repr

/-- The system commands, the only ones that execute while XJE is locked (40_system.md; 60_exceptions.md R245). -/
def Instr.isSystem : Instr → Bool
  | .nop | .statrd | .inford | .errclr => true
  | .pclr _ | .pseti _ _ | .pldc _ | .pwl _ _ _ | .prl _ _ | .padd _ _ _ | .pshu _ _ _ | .pshd _ _ _ | .pdeg _
  | .pmul _ _ _ | .psqr _ _ | .pred _ _ _ | .ppow _ _ _ _ => false
  | .ufrom32 _ _ | .uwl _ _ _ | .url _ _ | .umul _ _ _ => false
  | .sbwr _ | .sbrd _ | .slenw _ | .slenr | .uparse _ | .ufmt _ | .pparse _ | .pfmt _ => false
  | .gww _ _ | .grw _ | .arw _ | .gstep | .gapply _ | .jcomp _ | .japply | .jump _ => false

end Sys2Proof
end

