-- ==== Sys2Proof/WellFormed.lean ====
section
/-! DEFINITION. The checks of 30_encoding.md R76 that the types of Syntax.lean leave: item 5, the immediate bits
that UWL and SBWR must leave zero. Items 1 to 4 are about words and are Decode.lean's. -/

namespace Sys2Proof

/-- R76 item 5 for UWL: `imm[31:16] = 0`. -/
def uwlImmOk (imm : Data) : Bool := imm.extractLsb' 16 16 == 0#16

/-- R76 item 5 for SBWR: `imm[15:8] = 0`. -/
def sbwrImmOk (imm : Data) : Bool := imm.extractLsb' 8 8 == 0#8

/-- A term that stands for a well-formed word (30_encoding.md R76). The range of a limb or word index, an address
or a length is no part of it: such a word raises RANGE when executed. -/
def Instr.wellFormed : Instr → Bool
  | .uwl _ _ imm => uwlImmOk imm
  | .sbwr imm => sbwrImmOk imm
  | .nop | .statrd | .inford | .errclr => true
  | .pclr _ | .pseti _ _ | .pldc _ | .pwl _ _ _ | .prl _ _ | .padd _ _ _ | .pshu _ _ _ | .pshd _ _ _ | .pdeg _
  | .pmul _ _ _ | .psqr _ _ | .pred _ _ _ | .ppow _ _ _ _ => true
  | .ufrom32 _ _ | .url _ _ | .umul _ _ _ => true
  | .sbrd _ | .slenw _ | .slenr | .uparse _ | .ufmt _ | .pparse _ | .pfmt _ => true
  | .gww _ _ | .grw _ | .arw _ | .gstep | .gapply _ | .jcomp _ | .japply | .jump _ => true

end Sys2Proof
end

