-- ==== Sys2Proof/Decode.lean ====
section
/-! DEFINITION. Command words: fields, formats, the opcode table, the decoder and the encoder
(30_encoding.md R70 to R77, R81). Every bit position and opcode is written from R71, R72 and R75. -/

namespace Sys2Proof

/-- The fields of a command word (30_encoding.md R71). -/
structure Fields where
  op : BitVec 8
  rd : BitVec 4
  ra : BitVec 4
  rb : BitVec 4
  ix : BitVec 4
  rsv : BitVec 8
  imm : Data
  deriving DecidableEq, Repr

/-- The thirteen formats (30_encoding.md R72). -/
inductive Format where
  | f0 | fd | fa | fx | fi | fda | fdi | fax | fxi | fdab | fdai | fdxi | fdabx
  deriving DecidableEq, Repr

/-- Why a word is not well-formed (30_encoding.md R76, items 1 to 5 in order). -/
inductive Reject where
  | reservedOpcode
  | reservedField
  | unusedField
  | registerIndex
  | immediateBits
  deriving DecidableEq, Repr

/-- One row of the opcode table (30_encoding.md R75). -/
structure OpcodeRow where
  mnemonic : String
  op : BitVec 8
  format : Format
  mask : CmdWord
  deriving DecidableEq, Repr

/-- The column "match" of R75: the opcode number in bits 7:0 and zero elsewhere. -/
def OpcodeRow.matchWord (r : OpcodeRow) : CmdWord := r.op.setWidth 64

/-- `CW & mask = match` (30_encoding.md R75, R76). -/
def OpcodeRow.fits (r : OpcodeRow) (cw : CmdWord) : Bool := cw &&& r.mask == r.matchWord

/-- The system rows of 30_encoding.md R75. -/
def systemRows : List OpcodeRow := [
  ⟨"NOP", 0x00#8, .f0, 0xFFFFFFFFFFFFFFFF#64⟩,
  ⟨"STATRD", 0x01#8, .f0, 0xFFFFFFFFFFFFFFFF#64⟩,
  ⟨"INFORD", 0x02#8, .f0, 0xFFFFFFFFFFFFFFFF#64⟩,
  ⟨"ERRCLR", 0x03#8, .f0, 0xFFFFFFFFFFFFFFFF#64⟩]

/-- The polynomial rows of 30_encoding.md R75. -/
def polynomialRows : List OpcodeRow := [
  ⟨"PCLR", 0x10#8, .fd, 0xFFFFFFFFFFFFF8FF#64⟩,
  ⟨"PSETI", 0x11#8, .fdi, 0x00000000FFFFF8FF#64⟩,
  ⟨"PLDC", 0x12#8, .fd, 0xFFFFFFFFFFFFF8FF#64⟩,
  ⟨"PWL", 0x13#8, .fdxi, 0x00000000FF0FF8FF#64⟩,
  ⟨"PRL", 0x14#8, .fax, 0xFFFFFFFFFF0F8FFF#64⟩,
  ⟨"PADD", 0x15#8, .fdab, 0xFFFFFFFFFFF888FF#64⟩,
  ⟨"PSHU", 0x16#8, .fdai, 0x00000000FFFF88FF#64⟩,
  ⟨"PSHD", 0x17#8, .fdai, 0x00000000FFFF88FF#64⟩,
  ⟨"PDEG", 0x18#8, .fa, 0xFFFFFFFFFFFF8FFF#64⟩,
  ⟨"PMUL", 0x19#8, .fdab, 0xFFFFFFFFFFF888FF#64⟩,
  ⟨"PSQR", 0x1a#8, .fda, 0xFFFFFFFFFFFF88FF#64⟩,
  ⟨"PRED", 0x1b#8, .fdab, 0xFFFFFFFFFFF888FF#64⟩,
  ⟨"PPOW", 0x1c#8, .fdabx, 0xFFFFFFFFFF8C88FF#64⟩]

/-- The integer rows of 30_encoding.md R75. -/
def integerRows : List OpcodeRow := [
  ⟨"UFROM32", 0x20#8, .fdi, 0x00000000FFFFFCFF#64⟩,
  ⟨"UWL", 0x21#8, .fdxi, 0xFFFF0000FF0FFCFF#64⟩,
  ⟨"URL", 0x22#8, .fax, 0xFFFFFFFFFF0FCFFF#64⟩,
  ⟨"UMUL", 0x23#8, .fdab, 0xFFFFFFFFFFFCCCFF#64⟩]

/-- The codec rows of 30_encoding.md R75. -/
def codecRows : List OpcodeRow := [
  ⟨"SBWR", 0x30#8, .fi, 0x0000FF00FFFFFFFF#64⟩,
  ⟨"SBRD", 0x31#8, .fi, 0x00000000FFFFFFFF#64⟩,
  ⟨"SLENW", 0x32#8, .fi, 0x00000000FFFFFFFF#64⟩,
  ⟨"SLENR", 0x33#8, .f0, 0xFFFFFFFFFFFFFFFF#64⟩,
  ⟨"UPARSE", 0x34#8, .fd, 0xFFFFFFFFFFFFFCFF#64⟩,
  ⟨"UFMT", 0x35#8, .fa, 0xFFFFFFFFFFFFCFFF#64⟩,
  ⟨"PPARSE", 0x36#8, .fd, 0xFFFFFFFFFFFFF8FF#64⟩,
  ⟨"PFMT", 0x37#8, .fa, 0xFFFFFFFFFFFF8FFF#64⟩]

/-- The jump rows of 30_encoding.md R75. -/
def jumpRows : List OpcodeRow := [
  ⟨"GWW", 0x40#8, .fxi, 0x00000000FF0FFFFF#64⟩,
  ⟨"GRW", 0x41#8, .fx, 0xFFFFFFFFFF0FFFFF#64⟩,
  ⟨"ARW", 0x42#8, .fx, 0xFFFFFFFFFF0FFFFF#64⟩,
  ⟨"GSTEP", 0x43#8, .f0, 0xFFFFFFFFFFFFFFFF#64⟩,
  ⟨"GAPPLY", 0x44#8, .fa, 0xFFFFFFFFFFFF8FFF#64⟩,
  ⟨"JCOMP", 0x45#8, .fi, 0x00000000FFFFFFFF#64⟩,
  ⟨"JAPPLY", 0x46#8, .f0, 0xFFFFFFFFFFFFFFFF#64⟩,
  ⟨"JUMP", 0x47#8, .fi, 0x00000000FFFFFFFF#64⟩]

/-- The 37 rows of 30_encoding.md R75. -/
def opcodeTable : List OpcodeRow := systemRows ++ polynomialRows ++ integerRows ++ codecRows ++ jumpRows

/-- Taking a word apart (30_encoding.md R71). -/
def fields (cw : CmdWord) : Fields where
  op := cw.extractLsb' 0 8
  rd := cw.extractLsb' 8 4
  ra := cw.extractLsb' 12 4
  rb := cw.extractLsb' 16 4
  ix := cw.extractLsb' 20 4
  rsv := cw.extractLsb' 24 8
  imm := cw.extractLsb' 32 32

/-- Putting a word together (30_encoding.md R71). -/
def pack (f : Fields) : CmdWord := f.imm ++ f.rsv ++ f.ix ++ f.rb ++ f.ra ++ f.rd ++ f.op

/-- The format uses `rd` (30_encoding.md R72). -/
def Format.usesRd : Format → Bool
  | .fd | .fda | .fdi | .fdab | .fdai | .fdxi | .fdabx => true
  | .f0 | .fa | .fx | .fi | .fax | .fxi => false

/-- The format uses `ra` (30_encoding.md R72). -/
def Format.usesRa : Format → Bool
  | .fa | .fda | .fax | .fdab | .fdai | .fdabx => true
  | .f0 | .fd | .fx | .fi | .fdi | .fxi | .fdxi => false

/-- The format uses `rb` (30_encoding.md R72). -/
def Format.usesRb : Format → Bool
  | .fdab | .fdabx => true
  | .f0 | .fd | .fa | .fx | .fi | .fda | .fdi | .fax | .fxi | .fdai | .fdxi => false

/-- The format uses `ix` (30_encoding.md R72). -/
def Format.usesIx : Format → Bool
  | .fx | .fax | .fxi | .fdxi | .fdabx => true
  | .f0 | .fd | .fa | .fi | .fda | .fdi | .fdab | .fdai => false

/-- The format uses `imm` (30_encoding.md R72). -/
def Format.usesImm : Format → Bool
  | .fi | .fdi | .fxi | .fdai | .fdxi => true
  | .f0 | .fd | .fa | .fx | .fda | .fax | .fdab | .fdabx => false

/-- Every operand field the format does not use is zero (30_encoding.md R76 item 3). -/
def Fields.unusedZero (f : Fields) (fmt : Format) : Bool :=
  (fmt.usesRd || f.rd == 0#4) && (fmt.usesRa || f.ra == 0#4) && (fmt.usesRb || f.rb == 0#4) &&
  (fmt.usesIx || f.ix == 0#4) && (fmt.usesImm || f.imm == 0#32)

/-- Items 2 and 3 of 30_encoding.md R76 for a word of format `fmt`, then `k`. -/
def Fields.as (f : Fields) (fmt : Format) (k : Except Reject Instr) : Except Reject Instr :=
  if f.rsv != 0#8 then .error .reservedField
  else if !f.unusedZero fmt then .error .unusedField
  else k

/-- A field used as a `P` index is at most 7 (30_encoding.md R76 item 4). -/
def pReg (x : BitVec 4) : Except Reject PReg :=
  if h : x.toNat < 8 then .ok ⟨x.toNat, h⟩ else .error .registerIndex

/-- A field used as a `U` index is at most 3 (30_encoding.md R76 item 4). -/
def uReg (x : BitVec 4) : Except Reject UReg :=
  if h : x.toNat < 4 then .ok ⟨x.toNat, h⟩ else .error .registerIndex

/-- Item 5 of 30_encoding.md R76, then `k`. -/
def checkImm (ok : Bool) (k : Except Reject Instr) : Except Reject Instr :=
  if ok then k else .error .immediateBits

/-- The decoder on fields (30_encoding.md R75, R76); every other opcode is reserved (R77). -/
def decodeFields (f : Fields) : Except Reject Instr :=
  match f.op.toNat with
  | 0x00 => f.as .f0 (.ok .nop)
  | 0x01 => f.as .f0 (.ok .statrd)
  | 0x02 => f.as .f0 (.ok .inford)
  | 0x03 => f.as .f0 (.ok .errclr)
  | 0x10 => f.as .fd (do return .pclr (← pReg f.rd))
  | 0x11 => f.as .fdi (do return .pseti (← pReg f.rd) f.imm)
  | 0x12 => f.as .fd (do return .pldc (← pReg f.rd))
  | 0x13 => f.as .fdxi (do return .pwl (← pReg f.rd) f.ix f.imm)
  | 0x14 => f.as .fax (do return .prl (← pReg f.ra) f.ix)
  | 0x15 => f.as .fdab (do return .padd (← pReg f.rd) (← pReg f.ra) (← pReg f.rb))
  | 0x16 => f.as .fdai (do return .pshu (← pReg f.rd) (← pReg f.ra) f.imm)
  | 0x17 => f.as .fdai (do return .pshd (← pReg f.rd) (← pReg f.ra) f.imm)
  | 0x18 => f.as .fa (do return .pdeg (← pReg f.ra))
  | 0x19 => f.as .fdab (do return .pmul (← pReg f.rd) (← pReg f.ra) (← pReg f.rb))
  | 0x1A => f.as .fda (do return .psqr (← pReg f.rd) (← pReg f.ra))
  | 0x1B => f.as .fdab (do return .pred (← pReg f.rd) (← pReg f.ra) (← pReg f.rb))
  | 0x1C => f.as .fdabx (do return .ppow (← pReg f.rd) (← pReg f.ra) (← uReg f.rb) (← pReg f.ix))
  | 0x20 => f.as .fdi (do return .ufrom32 (← uReg f.rd) f.imm)
  | 0x21 => f.as .fdxi (checkImm (uwlImmOk f.imm) <| do return .uwl (← uReg f.rd) f.ix f.imm)
  | 0x22 => f.as .fax (do return .url (← uReg f.ra) f.ix)
  | 0x23 => f.as .fdab (do return .umul (← uReg f.rd) (← uReg f.ra) (← uReg f.rb))
  | 0x30 => f.as .fi (checkImm (sbwrImmOk f.imm) <| .ok (.sbwr f.imm))
  | 0x31 => f.as .fi (.ok (.sbrd f.imm))
  | 0x32 => f.as .fi (.ok (.slenw f.imm))
  | 0x33 => f.as .f0 (.ok .slenr)
  | 0x34 => f.as .fd (do return .uparse (← uReg f.rd))
  | 0x35 => f.as .fa (do return .ufmt (← uReg f.ra))
  | 0x36 => f.as .fd (do return .pparse (← pReg f.rd))
  | 0x37 => f.as .fa (do return .pfmt (← pReg f.ra))
  | 0x40 => f.as .fxi (.ok (.gww f.ix f.imm))
  | 0x41 => f.as .fx (.ok (.grw f.ix))
  | 0x42 => f.as .fx (.ok (.arw f.ix))
  | 0x43 => f.as .f0 (.ok .gstep)
  | 0x44 => f.as .fa (do return .gapply (← pReg f.ra))
  | 0x45 => f.as .fi (.ok (.jcomp f.imm))
  | 0x46 => f.as .f0 (.ok .japply)
  | 0x47 => f.as .fi (.ok (.jump f.imm))
  | _ => .error .reservedOpcode

/-- The decoder: total, every word is one command or is rejected by name (30_encoding.md R76, R77). -/
def decode (cw : CmdWord) : Except Reject Instr := decodeFields (fields cw)

/-- A register number in its 4-bit field. -/
def reg {n : Nat} (r : Fin n) : BitVec 4 := BitVec.ofNat 4 r.val

/-- The fields of a command's word; unused fields are zero (30_encoding.md R72, R75). -/
def Instr.fields : Instr → Fields
  | .nop => ⟨0x00#8, 0#4, 0#4, 0#4, 0#4, 0#8, 0#32⟩
  | .statrd => ⟨0x01#8, 0#4, 0#4, 0#4, 0#4, 0#8, 0#32⟩
  | .inford => ⟨0x02#8, 0#4, 0#4, 0#4, 0#4, 0#8, 0#32⟩
  | .errclr => ⟨0x03#8, 0#4, 0#4, 0#4, 0#4, 0#8, 0#32⟩
  | .pclr rd => ⟨0x10#8, reg rd, 0#4, 0#4, 0#4, 0#8, 0#32⟩
  | .pseti rd imm => ⟨0x11#8, reg rd, 0#4, 0#4, 0#4, 0#8, imm⟩
  | .pldc rd => ⟨0x12#8, reg rd, 0#4, 0#4, 0#4, 0#8, 0#32⟩
  | .pwl rd ix imm => ⟨0x13#8, reg rd, 0#4, 0#4, ix, 0#8, imm⟩
  | .prl ra ix => ⟨0x14#8, 0#4, reg ra, 0#4, ix, 0#8, 0#32⟩
  | .padd rd ra rb => ⟨0x15#8, reg rd, reg ra, reg rb, 0#4, 0#8, 0#32⟩
  | .pshu rd ra imm => ⟨0x16#8, reg rd, reg ra, 0#4, 0#4, 0#8, imm⟩
  | .pshd rd ra imm => ⟨0x17#8, reg rd, reg ra, 0#4, 0#4, 0#8, imm⟩
  | .pdeg ra => ⟨0x18#8, 0#4, reg ra, 0#4, 0#4, 0#8, 0#32⟩
  | .pmul rd ra rb => ⟨0x19#8, reg rd, reg ra, reg rb, 0#4, 0#8, 0#32⟩
  | .psqr rd ra => ⟨0x1A#8, reg rd, reg ra, 0#4, 0#4, 0#8, 0#32⟩
  | .pred rd ra rb => ⟨0x1B#8, reg rd, reg ra, reg rb, 0#4, 0#8, 0#32⟩
  | .ppow rd ra rb ix => ⟨0x1C#8, reg rd, reg ra, reg rb, reg ix, 0#8, 0#32⟩
  | .ufrom32 rd imm => ⟨0x20#8, reg rd, 0#4, 0#4, 0#4, 0#8, imm⟩
  | .uwl rd ix imm => ⟨0x21#8, reg rd, 0#4, 0#4, ix, 0#8, imm⟩
  | .url ra ix => ⟨0x22#8, 0#4, reg ra, 0#4, ix, 0#8, 0#32⟩
  | .umul rd ra rb => ⟨0x23#8, reg rd, reg ra, reg rb, 0#4, 0#8, 0#32⟩
  | .sbwr imm => ⟨0x30#8, 0#4, 0#4, 0#4, 0#4, 0#8, imm⟩
  | .sbrd imm => ⟨0x31#8, 0#4, 0#4, 0#4, 0#4, 0#8, imm⟩
  | .slenw imm => ⟨0x32#8, 0#4, 0#4, 0#4, 0#4, 0#8, imm⟩
  | .slenr => ⟨0x33#8, 0#4, 0#4, 0#4, 0#4, 0#8, 0#32⟩
  | .uparse rd => ⟨0x34#8, reg rd, 0#4, 0#4, 0#4, 0#8, 0#32⟩
  | .ufmt ra => ⟨0x35#8, 0#4, reg ra, 0#4, 0#4, 0#8, 0#32⟩
  | .pparse rd => ⟨0x36#8, reg rd, 0#4, 0#4, 0#4, 0#8, 0#32⟩
  | .pfmt ra => ⟨0x37#8, 0#4, reg ra, 0#4, 0#4, 0#8, 0#32⟩
  | .gww ix imm => ⟨0x40#8, 0#4, 0#4, 0#4, ix, 0#8, imm⟩
  | .grw ix => ⟨0x41#8, 0#4, 0#4, 0#4, ix, 0#8, 0#32⟩
  | .arw ix => ⟨0x42#8, 0#4, 0#4, 0#4, ix, 0#8, 0#32⟩
  | .gstep => ⟨0x43#8, 0#4, 0#4, 0#4, 0#4, 0#8, 0#32⟩
  | .gapply ra => ⟨0x44#8, 0#4, reg ra, 0#4, 0#4, 0#8, 0#32⟩
  | .jcomp imm => ⟨0x45#8, 0#4, 0#4, 0#4, 0#4, 0#8, imm⟩
  | .japply => ⟨0x46#8, 0#4, 0#4, 0#4, 0#4, 0#8, 0#32⟩
  | .jump imm => ⟨0x47#8, 0#4, 0#4, 0#4, 0#4, 0#8, imm⟩

/-- The encoder: the word of a well-formed command. -/
def encode (i : Instr) : CmdWord := pack i.fields

/-- The command the decoder reads from a table row's word: one 64-bit word, bit 0 the least significant, as the host
hands it over whole (30_encoding.md R70, R71); bits at `nbits` and above are zero, and no command is longer than 64. -/
def decodeTableWord (nbits w : Nat) : Option Instr :=
  if w % 2 ^ nbits < 2 ^ 64 then (decode (BitVec.ofNat 64 (w % 2 ^ nbits))).toOption else none

end Sys2Proof
end

