-- ==== Sys2Proof/Machine/Hex.lean ====
section
/-! DEFINITION. The hex codec's value functions (43_codec.md section 1). -/

namespace Sys2Proof.Machine

/-- `hexval` (R170), on ASCII byte values (notes/assumptions/9.md). -/
def hexVal (c : Byte) : Option Nat :=
  if 0x30 ≤ c.toNat ∧ c.toNat ≤ 0x39 then some (c.toNat - 0x30)
  else if 0x41 ≤ c.toNat ∧ c.toNat ≤ 0x46 then some (c.toNat - 0x41 + 10)
  else if 0x61 ≤ c.toNat ∧ c.toNat ≤ 0x66 then some (c.toNat - 0x61 + 10)
  else none

/-- The loop of R171 from position `k` with value `v`; the error is the first offending position. -/
def parseHexFrom (w : Nat) (k : Nat) (v : BitVec w) : Text → Except Nat (BitVec w)
  | [] => .ok v
  | c :: t =>
    match hexVal c with
    | none => .error k
    | some d => parseHexFrom w (k + 1) (v <<< 4 ||| BitVec.ofNat w d) t

/-- `parse_hex_W` (R171): the most significant digit first; digits pushed out at the top are dropped. -/
def parseHex (w : Nat) (t : Text) : Except Nat (BitVec w) := parseHexFrom w 0 0 t

/-- The character of a digit 0 to 15, lowercase (R172). -/
def hexChar (d : Nat) : Byte := if d < 10 then BitVec.ofNat 8 (0x30 + d) else BitVec.ofNat 8 (0x61 + (d - 10))

/-- The number of hex digits of a value: the least `n >= 1` with `v < 16^n` (R172). -/
def hexLength (v : Nat) : Nat := v.log2 / 4 + 1

/-- `to_hex` (R172): canonical lowercase text, no leading zeros, `"0"` for zero. -/
def toHex {w : Nat} (v : BitVec w) : Text :=
  (List.range (hexLength v.toNat)).map
    (fun k => hexChar (v.toNat / 16 ^ (hexLength v.toNat - 1 - k) % 16))

end Sys2Proof.Machine
end

