-- ==== Sys2Proof/Machine/State.lean ====
section
/-! DEFINITION. The state of one XJE instance (10_state.md R20), its two ports, the outcomes and the reset state. -/

namespace Sys2Proof.Machine

/-- The string buffer `SB` (20_memory.md R50) as the canonical list of its bytes that are not `0x00`, addresses
strictly rising; an address that is not listed holds `0x00` (10_state.md R36, 20_memory.md R56). -/
abbrev Memory := List Host.Cell

/-- The errors a command can end in (60_exceptions.md R240); LOCKED is a response only and is none of them (R245). -/
inductive Err where
  /-- The string holds a character that is not a hex digit (R241). -/
  | parse
  /-- The command word is not well-formed (R242). -/
  | illegal
  /-- An index, address or length names nothing (R243). -/
  | range
  /-- The modulus register holds the zero polynomial (R244). -/
  | redzero
  deriving DecidableEq, Repr

/-- The one response to a command word (30_encoding.md R74). -/
structure Response where
  status : BitVec 8
  data : Data
  deriving DecidableEq, Repr

/-- What the host can do to XJE: give a command word (30_encoding.md R70) or reset it (70_reset_and_hazards.md R270). -/
inductive HostInput where
  | command (cw : CmdWord)
  | reset
  deriving DecidableEq, Repr

/-- The whole state: the table of 10_state.md R20, and last the model's own record of the two ports
(notes/assumptions/1.md, 2.md, 3.md). -/
structure State where
  /-- `P0..P7` (R21, R22). -/
  p : Vector Poly 8
  /-- `U0..U3` (R23, R24). -/
  u : Vector U128 4
  /-- `GEN` (R25). -/
  gen : Gen
  /-- `ACC` (R26). -/
  acc : Gen
  /-- `SB[0..127]` (R27). -/
  sb : Memory
  /-- `SLEN` (R27). -/
  slen : BitVec 8
  /-- `STATUS.ERRCODE`; `STATUS[31:8]` is hardwired 0 and not stored (R28). -/
  errcode : BitVec 8
  /-- `ERRINFO` (R29). -/
  errinfo : Data
  /-- Model's own: the host's inputs XJE has not taken yet, oldest first (R32). -/
  input : List HostInput
  /-- Model's own: the responses XJE has given, newest first (30_encoding.md R74). -/
  responses : List Response
  /-- Model's own: the states XJE has presented on the step port, newest first (60_exceptions.md R255). -/
  stepPort : List Gen
  deriving DecidableEq, Repr

/-- Nothing stops XJE: every error is a next state (60_exceptions.md R248) and every word has an outcome
(30_encoding.md R77), so there is no fault, nobody raises one, and that is safe (notes/assumptions/5.md). -/
inductive Fault where
  deriving DecidableEq, Repr

/-- The refusals. -/
inductive Refusal where
  /-- An instruction that has no meaning yet, raised by its arm of `exec`; safe. No arm raises it in this model. -/
  | notModelled (mnemonic : String)
  deriving DecidableEq, Repr

/-- Reset: every bit of architectural state is zero (10_state.md R36, 70_reset_and_hazards.md R271); nothing has
been given, answered or stepped (notes/assumptions/1.md, 2.md, 3.md). -/
def State.reset : State where
  p := Vector.replicate 8 0#256
  u := Vector.replicate 4 0#128
  gen := 0#128
  acc := 0#128
  sb := []
  slen := 0#8
  errcode := 0#8
  errinfo := 0#32
  input := []
  responses := []
  stepPort := []

end Sys2Proof.Machine
end

