-- ==== Sys2Proof/Machine/Flags.lean ====
section
/-! DEFINITION. The only flag XJE has: the error latch `STATUS.ERRCODE` and the lock it is (10_state.md R28). No
arithmetic command records carry, overflow, zero or sign anywhere. -/

namespace Sys2Proof.Machine

/-- The error codes (60_exceptions.md R240). -/
def Err.code : Err → BitVec 8
  | .parse => 1#8
  | .illegal => 2#8
  | .range => 3#8
  | .redzero => 4#8

/-- The response status of a command that ends without error (60_exceptions.md R240). -/
def okStatus : BitVec 8 := 0#8

/-- The response status while locked; never latched (60_exceptions.md R240, R245). -/
def lockedStatus : BitVec 8 := 5#8

/-- The 32-bit `STATUS` register: `ERRCODE` in bits 7:0, bits 31:8 hardwired 0 (10_state.md R28). -/
def State.status (s : State) : Data := s.errcode.setWidth 32

/-- XJE is locked exactly when `ERRCODE` is not 0 (10_state.md R28). -/
def State.locked (s : State) : Bool := s.errcode != 0#8

/-- `STATUS.ERRCODE` and `ERRINFO` written together (10_state.md R29). -/
def State.latch (s : State) (code : BitVec 8) (info : Data) : State := { s with errcode := code, errinfo := info }

end Sys2Proof.Machine
end

