-- ==== Sys2Proof/Machine/Operands.lean ====
section
/-! DEFINITION. Operand forms: bit fields of registers (limbs and words, 20_memory.md R52) and of the immediate
(30_encoding.md R73). Values are read as 00_scope.md R7 numbers them. -/

namespace Sys2Proof.Machine

/-- `v` with the `n` bits from `lo` up replaced by `x` and every other bit kept. -/
def replaceBits {w n : Nat} (v : BitVec w) (lo : Nat) (x : BitVec n) : BitVec w :=
  (v &&& ~~~((BitVec.allOnes n).setWidth w <<< lo)) ||| (x.setWidth w <<< lo)

/-- Limb `j` of a polynomial: bits `[32j+31:32j]` (10_state.md R22). -/
def polyLimb (v : Poly) (j : Nat) : BitVec 32 := v.extractLsb' (32 * j) 32

/-- A polynomial with limb `j` replaced (42_gf2poly.md R144). -/
def setPolyLimb (v : Poly) (j : Nat) (x : BitVec 32) : Poly := replaceBits v (32 * j) x

/-- Limb `j` of an integer: bits `[16j+15:16j]` (10_state.md R24). -/
def uintLimb (v : U128) (j : Nat) : BitVec 16 := v.extractLsb' (16 * j) 16

/-- An integer with limb `j` replaced (41_biguint128.md R115). -/
def setUintLimb (v : U128) (j : Nat) (x : BitVec 16) : U128 := replaceBits v (16 * j) x

/-- Word `w` of a generator state: bits `[32w+31:32w]` (10_state.md R25). -/
def genWord (v : Gen) (w : Nat) : BitVec 32 := v.extractLsb' (32 * w) 32

/-- A generator state with word `w` replaced (44_jump.md R205). -/
def setGenWord (v : Gen) (w : Nat) (x : BitVec 32) : Gen := replaceBits v (32 * w) x

/-- The largest limb index, for PWL, PRL, UWL, URL (30_encoding.md R73). -/
def maxLimb : Nat := 7

/-- The largest word index, for GWW, GRW, ARW (30_encoding.md R73). -/
def maxWord : Nat := 3

/-- `SB_BYTES` (00_scope.md R6; 20_memory.md R61). -/
def sbBytes : Nat := 128

/-- UWL's limb, `imm[15:0]` (30_encoding.md R73). -/
def immLimb (imm : Data) : BitVec 16 := imm.extractLsb' 0 16

/-- SBWR's address, `imm[31:16]` (30_encoding.md R73). -/
def immAddr (imm : Data) : BitVec 16 := imm.extractLsb' 16 16

/-- SBWR's byte, `imm[7:0]` (30_encoding.md R73). -/
def immByte (imm : Data) : Byte := imm.extractLsb' 0 8

end Sys2Proof.Machine
end

