-- ==== Sys2Proof/Machine/Ops.lean ====
section
/-! DEFINITION. The named operations over the string buffer, the registers and the ports, and the ways a command
ends: without error, in an error (error entry), or turned away while locked (00_scope.md R10; 60_exceptions.md). -/

namespace Sys2Proof.Machine

/-! ### The string buffer (20_memory.md) -/

/-- `MemRead(a, 1)` (00_scope.md R10): an unlisted address holds the reset value `0x00` (20_memory.md R56). -/
def Memory.read : Memory → Nat → Byte
  | [], _ => 0#8
  | (k, b) :: m, a => if k = a then b else Memory.read m a

/-- Insertion of an entry in address order. -/
def Memory.insert (a : Nat) (b : Byte) : Memory → Memory
  | [] => [(a, b)]
  | (k, c) :: m => if a < k then (a, b) :: (k, c) :: m else (k, c) :: Memory.insert a b m

/-- `MemWrite(a, 1, b)` (00_scope.md R10), keeping the canonical form: `0x00` is held by no entry. -/
def Memory.write (m : Memory) (a : Nat) (b : Byte) : Memory :=
  let rest := m.filter (fun c => c.1 != a)
  if b = 0#8 then rest else Memory.insert a b rest

/-- Addresses strictly rising from `lo`, all below `SB_BYTES`, no entry `0x00`. -/
def Memory.wfFrom (lo : Nat) : Memory → Bool
  | [] => true
  | (k, b) :: m => decide (lo ≤ k) && decide (k < sbBytes) && (b != 0#8) && Memory.wfFrom (k + 1) m

/-- The canonical form of the string buffer. -/
def Memory.wf (m : Memory) : Bool := Memory.wfFrom 0 m

/-- `for k in 0..L-1: MemWrite(k, 1, t[k])`, from address `a` on (43_codec.md R179). -/
def Memory.writeText (a : Nat) : Text → Memory → Memory
  | [], m => m
  | c :: t, m => Memory.writeText (a + 1) t (m.write a c)

/-- `STR`: the bytes `SB[0], ..., SB[SLEN-1]` (20_memory.md R60). -/
def State.str (s : State) : Text := (List.range s.slen.toNat).map s.sb.read

/-- A new string: its characters from address 0, `SLEN` its length, the bytes beyond it unchanged (20_memory.md R60). -/
def State.putText (s : State) (t : Text) : State :=
  { s with sb := Memory.writeText 0 t s.sb, slen := BitVec.ofNat 8 t.length }

/-- `SB[a] <- b` alone (43_codec.md R174). -/
def State.writeByte (s : State) (a : Nat) (b : Byte) : State := { s with sb := s.sb.write a b }

/-- `SLEN <- n` alone (43_codec.md R176). -/
def State.writeSlen (s : State) (n : BitVec 8) : State := { s with slen := n }

/-! ### The registers (10_state.md) -/

/-- `P[i]` (10_state.md R21). -/
def State.readP (s : State) (i : PReg) : Poly := s.p[i]

/-- `P[i] <- v` (10_state.md R21). -/
def State.writeP (s : State) (i : PReg) (v : Poly) : State := { s with p := s.p.set i v }

/-- `U[i]` (10_state.md R23). -/
def State.readU (s : State) (i : UReg) : U128 := s.u[i]

/-- `U[i] <- v` (10_state.md R23). -/
def State.writeU (s : State) (i : UReg) (v : U128) : State := { s with u := s.u.set i v }

/-- `GEN <- g` (10_state.md R25). -/
def State.writeGen (s : State) (g : Gen) : State := { s with gen := g }

/-- `ACC <- a` (10_state.md R26). -/
def State.writeAcc (s : State) (a : Gen) : State := { s with acc := a }

/-! ### The ports -/

/-- The response given for the command in hand (30_encoding.md R74). -/
def State.answer (s : State) (status : BitVec 8) (data : Data) : State :=
  { s with responses := ⟨status, data⟩ :: s.responses }

/-- The states `l` (newest first) presented on the step port (60_exceptions.md R255). -/
def State.present (s : State) (l : List Gen) : State := { s with stepPort := l ++ s.stepPort }

/-- The inputs the host still holds. -/
def State.withInput (s : State) (l : List HostInput) : State := { s with input := l }

/-- The reset event (70_reset_and_hazards.md R270, R271): all architectural state is the reset state, no response is
given, and what the host and the step unit have already seen or still hold is theirs (notes/assumptions/8.md). -/
def State.hostReset (s : State) : State :=
  { State.reset with input := s.input, responses := s.responses, stepPort := s.stepPort }

/-! ### How a command ends -/

/-- What a command answers. -/
abbrev Result := Host.Outcome State Fault Refusal

/-- `respond(data)`: the command ends without error (00_scope.md R10; 30_encoding.md R74). -/
def respond (data : Data) (s : State) : Result := .next (s.answer okStatus data)

/-- `raise E(info)`, error entry (60_exceptions.md R248): `ERRCODE` and `ERRINFO` are written, every other piece of state
keeps the value it had before the command, and the response is `(code, 0)`. There is no handler, vector or saved state. -/
def raise (e : Err) (info : Data) (s : State) : Result := .next ((s.latch e.code info).answer e.code 0#32)

/-- Error return (60_exceptions.md R249): the latch is cleared and nothing is restored, because nothing was saved. -/
def clearError (s : State) : State := s.latch 0#8 0#32

/-- Every command but the system commands is turned away while XJE is locked: response `(5, 0)`, no state change
(60_exceptions.md R245; the first test of 30_encoding.md R81). -/
def whenUnlocked (s : State) (k : Result) : Result := if s.locked then .next (s.answer lockedStatus 0#32) else k

/-- A word that is not well-formed: LOCKED while locked, else ILLEGAL with the low half of the word
(30_encoding.md R81; 60_exceptions.md R242, R245). -/
def illegal (cw : CmdWord) (s : State) : Result := whenUnlocked s (raise .illegal (cw.extractLsb' 0 32) s)

/-- A limb or word index above `max` raises RANGE with the index (60_exceptions.md R243). -/
def checkIndex (max : Nat) (ix : Index) (s : State) (k : Result) : Result :=
  if ix.toNat > max then raise .range (ix.setWidth 32) s else k

end Sys2Proof.Machine
end

