-- ==== Sys2Proof/Machine/Codec.lean ====
section
/-! DEFINITION. The string buffer and codec commands (43_codec.md sections 2 and 3). -/

namespace Sys2Proof.Machine

/-- The string parsed at width `w`, then `k`; a character that is no hex digit raises PARSE with its position
(43_codec.md R171; 60_exceptions.md R241). -/
def withParsed (w : Nat) (s : State) (k : BitVec w → Result) : Result :=
  match parseHex w s.str with
  | .error pos => raise .parse (BitVec.ofNat 32 pos) s
  | .ok v => k v

/-- SBWR (R174). -/
def execSbwr (imm : Data) (s : State) : Result :=
  whenUnlocked s <|
    if (immAddr imm).toNat ≥ sbBytes then raise .range ((immAddr imm).setWidth 32) s
    else respond 0#32 (s.writeByte (immAddr imm).toNat (immByte imm))

/-- SBRD (R175). -/
def execSbrd (imm : Data) (s : State) : Result :=
  whenUnlocked s <|
    if imm.toNat ≥ sbBytes then raise .range imm s
    else respond ((s.sb.read imm.toNat).setWidth 32) s

/-- SLENW (R176). -/
def execSlenw (imm : Data) (s : State) : Result :=
  whenUnlocked s <|
    if imm.toNat > sbBytes then raise .range imm s
    else respond 0#32 (s.writeSlen (imm.setWidth 8))

/-- SLENR (R177). -/
def execSlenr (s : State) : Result := whenUnlocked s (respond (s.slen.setWidth 32) s)

/-- UPARSE (R178). -/
def execUparse (rd : UReg) (s : State) : Result :=
  whenUnlocked s (withParsed 128 s fun v => respond 0#32 (s.writeU rd v))

/-- UFMT (R179). -/
def execUfmt (ra : UReg) (s : State) : Result :=
  whenUnlocked s (respond (BitVec.ofNat 32 (toHex (s.readU ra)).length) (s.putText (toHex (s.readU ra))))

/-- PPARSE (R180). -/
def execPparse (rd : PReg) (s : State) : Result :=
  whenUnlocked s (withParsed 256 s fun v => respond 0#32 (s.writeP rd v))

/-- PFMT (R181). -/
def execPfmt (ra : PReg) (s : State) : Result :=
  whenUnlocked s (respond (BitVec.ofNat 32 (toHex (s.readP ra)).length) (s.putText (toHex (s.readP ra))))

end Sys2Proof.Machine
end

