-- ==== Sys2Proof/Config.lean ====
section
/-! DEFINITION. What is fixed for one XJE instance and left open by the spec: `CHARPOLY` and `T`
(10_state.md R30, R31; 92_eei_decisions.md D20 OPEN). See notes/assumptions/4.md. -/

namespace Sys2Proof

/-- The two parameters of an instance: the characteristic polynomial (10_state.md R30) and the one-step
operator `T` behind the step port (10_state.md R31). -/
structure XjeParams where
  charpoly : Poly
  step : Gen → Gen

/-- `CHARPOLY(T)` applied to `s`: the XOR over `i` in `0..128` with `c[i] = 1` of `T^i(s)` (44_jump.md R201). -/
def XjeParams.annihilator (c : XjeParams) (s : Gen) : Gen :=
  (List.range 129).foldl (fun acc i => if c.charpoly.getLsbD i then acc ^^^ c.step^[i] s else acc) 0

/-- The contracts of the two parameters (44_jump.md R200, R201; 10_state.md R30). -/
structure XjeParams.Contract (c : XjeParams) : Prop where
  /-- R30: `CHARPOLY[128] = 1`. -/
  top : c.charpoly.getLsbD 128 = true
  /-- R30: `CHARPOLY[255:129] = 0`. -/
  above : ∀ i, 128 < i → c.charpoly.getLsbD i = false
  /-- R200: `T(a ^ b) = T(a) ^ T(b)`. -/
  linear : ∀ a b, c.step (a ^^^ b) = c.step a ^^^ c.step b
  /-- R201: `CHARPOLY(T)` is the zero operator. -/
  annihilates : ∀ s, c.annihilator s = 0

/-- The trivial pair (`x^128 + 1` and the identity): used only to show that the contracts can be met. -/
def Config.trivialParams : XjeParams := ⟨1#256 <<< 128 ||| 1#256, id⟩

theorem Config.foldl_keeps {α : Type} (f : α → Nat → α) (l : List Nat) (h : ∀ a, ∀ i ∈ l, f a i = a) (a : α) :
    l.foldl f a = a := by
  induction l generalizing a with
  | nil => rfl
  | cons i l ih =>
    rw [List.foldl_cons, h a i List.mem_cons_self]
    exact ih (fun a j hj => h a j (List.mem_cons_of_mem _ hj)) a

theorem Config.trivialParams_coeff (i : Nat) :
    Config.trivialParams.charpoly.getLsbD i = (decide (i = 128) || decide (i = 0)) := by
  simp only [Config.trivialParams, BitVec.getLsbD_or, BitVec.getLsbD_shiftLeft, BitVec.getLsbD_one]
  by_cases h : i = 128
  · subst h; decide
  · by_cases h0 : i = 0
    · subst h0; decide
    · have : ¬ (i - 128 = 0 ∧ ¬ i < 128 ∧ i < 256) := by omega
      simp [h, h0]; omega

theorem Config.trivialParams_contract : Config.trivialParams.Contract where
  top := by rw [Config.trivialParams_coeff]; decide
  above i hi := by
    rw [Config.trivialParams_coeff]
    have h1 : i ≠ 128 := by omega
    have h2 : i ≠ 0 := by omega
    simp [h1, h2]
  linear a b := rfl
  annihilates s := by
    have h128 : List.range 129 = 0 :: (List.range 127).map (· + 1) ++ [128] := by decide
    have hid : ∀ i : Nat, (Config.trivialParams.step)^[i] s = s := fun i => by
      show id^[i] s = s; rw [Function.iterate_id]; rfl
    unfold XjeParams.annihilator
    simp only [hid, h128, List.cons_append, List.foldl_cons, List.foldl_append, List.foldl_nil]
    rw [Config.foldl_keeps _ ((List.range 127).map (· + 1))]
    · simp [Config.trivialParams_coeff]
    · intro a i hi
      obtain ⟨j, hj, rfl⟩ := List.mem_map.mp hi
      have hj' : j < 127 := List.mem_range.mp hj
      have h1 : j + 1 ≠ 128 := by omega
      simp [Config.trivialParams_coeff, h1]

/-- The open choice of D20: some pair that meets the contracts. It has no body, so nothing but the contracts
can be known of it; the argument only shows that such a pair exists. -/
opaque Config.chosen (witness : Inhabited {c : XjeParams // c.Contract}) : {c : XjeParams // c.Contract}

/-- The parameters of this instance: `CHARPOLY` and `T`, unknown but for their contracts (44_jump.md R200, R201). -/
def Config.params : XjeParams :=
  (Config.chosen ⟨⟨Config.trivialParams, Config.trivialParams_contract⟩⟩).val

/-- All that is known of the parameters (44_jump.md R200, R201). -/
theorem Config.params_contract : Config.params.Contract := (Config.chosen _).property

end Sys2Proof
end

