-- ==== Sys2Proof/Machine/Applicator.lean ====
section
/-! DEFINITION. The jump-polynomial applicator (44_jump.md R202) and what it shows on the step port
(60_exceptions.md R255). -/

namespace Sys2Proof.Machine

/-- The applicator in mid-command (10_state.md R34): accumulator, live state, and the states presented on the step
port so far, newest first. -/
structure Applicator where
  acc : Gen
  src : Gen
  port : List Gen
  deriving DecidableEq, Repr

/-- One coefficient position of R202: XOR the live state in if the coefficient is set, then step it whatever it is. -/
def applyStep (step : Gen → Gen) (poly : Poly) (a : Applicator) (i : Nat) : Applicator :=
  ⟨if poly.getLsbD i then a.acc ^^^ a.src else a.acc, step a.src, a.src :: a.port⟩

/-- The whole run of R202: positions 0 to 255, ascending. -/
def applyRun (step : Gen → Gen) (gen : Gen) (poly : Poly) : Applicator :=
  (List.range 256).foldl (applyStep step poly) ⟨0#128, gen, []⟩

/-- `g_apply` (R202). -/
def gApply (step : Gen → Gen) (gen : Gen) (poly : Poly) : Gen := (applyRun step gen poly).acc

/-- `ACC <- a; GEN <- a` with `a = g_apply(GEN, poly)`, and the 256 presentations (R209). -/
def State.applyPoly (s : State) (step : Gen → Gen) (poly : Poly) : State :=
  ((s.writeAcc (gApply step s.gen poly)).writeGen (gApply step s.gen poly)).present (applyRun step s.gen poly).port

end Sys2Proof.Machine
end

