-- ==== Sys2Proof/Machine/Gf2.lean ====
section
/-! DEFINITION. The value functions of the GF(2) polynomial unit (42_gf2poly.md section 1). -/

namespace Sys2Proof.Machine

/-- `p_add` (R130). -/
def pAdd (x y : Poly) : Poly := x ^^^ y

/-- `p_shu` (R131): multiplication by `x^n` inside 256 coefficients. -/
def pShu (x : Poly) (n : Nat) : Poly := if 256 ≤ n then 0#256 else x <<< n

/-- `p_shd` (R132): division by `x^n` with the remainder dropped. -/
def pShd (x : Poly) (n : Nat) : Poly := if 256 ≤ n then 0#256 else x >>> n

/-- `p_deg` (R133): the index of the highest set coefficient, -1 for the zero polynomial. -/
def pDeg (x : Poly) : Int := if x = 0#256 then -1 else (x.toNat.log2 : Int)

/-- One step of R134: the accumulator `r` after position `i` of `y`. -/
def pMulStep (x y : Poly) (r : Poly) (i : Nat) : Poly := if y.getLsbD i then pAdd r (pShu x i) else r

/-- `p_mul` (R134): shift and add over all 256 coefficients of `y`, ascending. -/
def pMul (x y : Poly) : Poly := (List.range 256).foldl (pMulStep x y) 0#256

/-- `p_sqr` (R135). -/
def pSqr (x : Poly) : Poly := pMul x x

/-- The loop of R136: `dm` the degree of the modulus as given (90_conflicts.md C2), `mm` the stepped copy; the loop
runs at most 256 times (70_reset_and_hazards.md R277), which is the fuel `pRed` gives it. -/
def pRedLoop (dm : Int) : Nat → Poly → Poly → Poly
  | 0, _, x => x
  | n + 1, mm, x =>
    if dm ≤ pDeg x then
      if pDeg x = pDeg (pShd mm 1) then pRedLoop dm n (pShd mm 1) (pAdd x (pShd mm 1))
      else pRedLoop dm n (pShd mm 1) x
    else x

/-- `p_red` (R136), for `m` not zero: the remainder of `x` on division by `m`. -/
def pRed (x m : Poly) : Poly :=
  if pDeg x < pDeg m then x
  else
    pRedLoop (pDeg m) 256 (pShu m (pDeg x - pDeg m).toNat) (pAdd x (pShu m (pDeg x - pDeg m).toNat))

/-- `u_bit` (41_biguint128.md R113). -/
def uBit (e : U128) (i : Nat) : Bool := e.getLsbD i

/-- One iteration of R137 on the pair `(acc, runningBase)`; the base is squared in every iteration. -/
def pPowStep (e : U128) (m : Poly) (a : Poly × Poly) (i : Nat) : Poly × Poly :=
  (if uBit e i then pRed (pMul a.1 a.2) m else a.1, pRed (pSqr a.2) m)

/-- `p_pow` (R137), for `m` not zero: all 128 exponent bits, least significant first; the base is not reduced first. -/
def pPow (base : Poly) (e : U128) (m : Poly) : Poly := ((List.range 128).foldl (pPowStep e m) (1#256, base)).1

end Sys2Proof.Machine
end

