-- ==== Sys2Proof/Machine/Uint.lean ====
section
/-! DEFINITION. The 128-bit unsigned integer unit (41_biguint128.md). -/

namespace Sys2Proof.Machine

/-- `u_from32` (R110). -/
def uFrom32 (v : Data) : U128 := v.setWidth 128

/-- `u_mul` (R111): `(a * b) mod 2^128`. -/
def uMul (a b : U128) : U128 := a * b

/-- UFROM32 (R114). -/
def execUfrom32 (rd : UReg) (imm : Data) (s : State) : Result :=
  whenUnlocked s (respond 0#32 (s.writeU rd (uFrom32 imm)))

/-- UWL (R115). -/
def execUwl (rd : UReg) (ix : Index) (imm : Data) (s : State) : Result :=
  whenUnlocked s
    (checkIndex maxLimb ix s (respond 0#32 (s.writeU rd (setUintLimb (s.readU rd) ix.toNat (immLimb imm)))))

/-- URL (R116). -/
def execUrl (ra : UReg) (ix : Index) (s : State) : Result :=
  whenUnlocked s (checkIndex maxLimb ix s (respond ((uintLimb (s.readU ra) ix.toNat).setWidth 32) s))

/-- UMUL (R117). -/
def execUmul (rd ra rb : UReg) (s : State) : Result :=
  whenUnlocked s (respond 0#32 (s.writeU rd (uMul (s.readU ra) (s.readU rb))))

end Sys2Proof.Machine
end

