-- ==== Sys2Proof/Machine/Jump.lean ====
section
/-! DEFINITION. Generator access and the jump sequencer (44_jump.md sections 3 and 4). A command that uses `CHARPOLY`
or `T` is written for any parameters `c` and run with `Config.params`. -/

namespace Sys2Proof.Machine

/-- GWW (R205). -/
def execGww (ix : Index) (imm : Data) (s : State) : Result :=
  whenUnlocked s (checkIndex maxWord ix s (respond 0#32 (s.writeGen (setGenWord s.gen ix.toNat imm))))

/-- GRW (R206). -/
def execGrw (ix : Index) (s : State) : Result :=
  whenUnlocked s (checkIndex maxWord ix s (respond (genWord s.gen ix.toNat) s))

/-- ARW (R207). -/
def execArw (ix : Index) (s : State) : Result :=
  whenUnlocked s (checkIndex maxWord ix s (respond (genWord s.acc ix.toNat) s))

/-- GSTEP (R208) under the parameters `c`: one application of `T` through the step port. -/
def gstepWith (c : XjeParams) (s : State) : Result :=
  whenUnlocked s (respond 0#32 ((s.writeGen (c.step s.gen)).present [s.gen]))

/-- GSTEP (R208). -/
def execGstep (s : State) : Result := gstepWith Config.params s

/-- GAPPLY (R209) under the parameters `c`. -/
def gapplyWith (c : XjeParams) (ra : PReg) (s : State) : Result :=
  whenUnlocked s (respond 0#32 (s.applyPoly c.step (s.readP ra)))

/-- GAPPLY (R209). -/
def execGapply (ra : PReg) (s : State) : Result := gapplyWith Config.params ra s

/-- The jump polynomial `x^e mod CHARPOLY` with `e = multiplier * base` (R210); the value 2 is the polynomial "x". -/
def jumpPoly (c : XjeParams) (mult : Data) (base : U128) : Poly :=
  pPow 2#256 (uMul (uFrom32 mult) base) c.charpoly

/-- JCOMP (R210) under the parameters `c`. -/
def jcompWith (c : XjeParams) (imm : Data) (s : State) : Result :=
  whenUnlocked s <| withParsed 128 s fun base =>
    respond (BitVec.ofNat 32 (toHex (jumpPoly c imm base)).length) (s.putText (toHex (jumpPoly c imm base)))

/-- JCOMP (R210). -/
def execJcomp (imm : Data) (s : State) : Result := jcompWith Config.params imm s

/-- JAPPLY (R211) under the parameters `c`. -/
def japplyWith (c : XjeParams) (s : State) : Result :=
  whenUnlocked s (withParsed 256 s fun jp => respond 0#32 (s.applyPoly c.step jp))

/-- JAPPLY (R211). -/
def execJapply (s : State) : Result := japplyWith Config.params s

/-- JUMP (R212) under the parameters `c`: JCOMP's text is left in the buffer and its polynomial applied, as one command. -/
def jumpWith (c : XjeParams) (imm : Data) (s : State) : Result :=
  whenUnlocked s <| withParsed 128 s fun base =>
    respond 0#32 ((s.putText (toHex (jumpPoly c imm base))).applyPoly c.step (jumpPoly c imm base))

/-- JUMP (R212). -/
def execJump (imm : Data) (s : State) : Result := jumpWith Config.params imm s

end Sys2Proof.Machine
end

