-- ==== Sys2Proof/Machine/Poly.lean ====
section
/-! DEFINITION. The commands of the polynomial unit (42_gf2poly.md section 2). Each reads its sources before it writes
its destination (00_scope.md R11) and is turned away while locked (60_exceptions.md R245). -/

namespace Sys2Proof.Machine

/-- PCLR (R141). -/
def execPclr (rd : PReg) (s : State) : Result := whenUnlocked s (respond 0#32 (s.writeP rd 0#256))

/-- PSETI (R142). -/
def execPseti (rd : PReg) (imm : Data) (s : State) : Result :=
  whenUnlocked s (respond 0#32 (s.writeP rd (imm.setWidth 256)))

/-- PLDC (R143) under the parameters `c`. -/
def pldcWith (c : XjeParams) (rd : PReg) (s : State) : Result :=
  whenUnlocked s (respond 0#32 (s.writeP rd c.charpoly))

/-- PLDC (R143). -/
def execPldc (rd : PReg) (s : State) : Result := pldcWith Config.params rd s

/-- PWL (R144). -/
def execPwl (rd : PReg) (ix : Index) (imm : Data) (s : State) : Result :=
  whenUnlocked s (checkIndex maxLimb ix s (respond 0#32 (s.writeP rd (setPolyLimb (s.readP rd) ix.toNat imm))))

/-- PRL (R145). -/
def execPrl (ra : PReg) (ix : Index) (s : State) : Result :=
  whenUnlocked s (checkIndex maxLimb ix s (respond (polyLimb (s.readP ra) ix.toNat) s))

/-- PADD (R146). -/
def execPadd (rd ra rb : PReg) (s : State) : Result :=
  whenUnlocked s (respond 0#32 (s.writeP rd (pAdd (s.readP ra) (s.readP rb))))

/-- PSHU (R147). -/
def execPshu (rd ra : PReg) (imm : Data) (s : State) : Result :=
  whenUnlocked s (respond 0#32 (s.writeP rd (pShu (s.readP ra) imm.toNat)))

/-- PSHD (R148). -/
def execPshd (rd ra : PReg) (imm : Data) (s : State) : Result :=
  whenUnlocked s (respond 0#32 (s.writeP rd (pShd (s.readP ra) imm.toNat)))

/-- PDEG (R149): the degree in 32-bit two's complement (92_eei_decisions.md D21). -/
def execPdeg (ra : PReg) (s : State) : Result :=
  whenUnlocked s (respond (BitVec.ofInt 32 (pDeg (s.readP ra))) s)

/-- PMUL (R150). -/
def execPmul (rd ra rb : PReg) (s : State) : Result :=
  whenUnlocked s (respond 0#32 (s.writeP rd (pMul (s.readP ra) (s.readP rb))))

/-- PSQR (R151). -/
def execPsqr (rd ra : PReg) (s : State) : Result :=
  whenUnlocked s (respond 0#32 (s.writeP rd (pSqr (s.readP ra))))

/-- PRED (R152). -/
def execPred (rd ra rb : PReg) (s : State) : Result :=
  whenUnlocked s <|
    if s.readP rb = 0#256 then raise .redzero 0#32 s
    else respond 0#32 (s.writeP rd (pRed (s.readP ra) (s.readP rb)))

/-- PPOW (R153). -/
def execPpow (rd ra : PReg) (rb : UReg) (ix : PReg) (s : State) : Result :=
  whenUnlocked s <|
    if s.readP ix = 0#256 then raise .redzero 0#32 s
    else respond 0#32 (s.writeP rd (pPow (s.readP ra) (s.readU rb) (s.readP ix)))

end Sys2Proof.Machine
end

