-- ==== Sys2Proof/Machine/System.lean ====
section
/-! DEFINITION. The system commands (40_system.md), the only ones that execute while XJE is locked. -/

namespace Sys2Proof.Machine

/-- NOP (40_system.md R100). -/
def execNop (s : State) : Result := respond 0#32 s

/-- STATRD (40_system.md R101). -/
def execStatrd (s : State) : Result := respond s.status s

/-- INFORD (40_system.md R102). -/
def execInford (s : State) : Result := respond s.errinfo s

/-- ERRCLR (40_system.md R103). -/
def execErrclr (s : State) : Result := respond 0#32 (clearError s)

end Sys2Proof.Machine
end

