-- ==== Sys2Proof/Machine/Dispatch.lean ====
section
/-! DEFINITION. One arm per command (30_encoding.md R75). -/

namespace Sys2Proof.Machine

/-- What a well-formed command does, the lock test included (30_encoding.md R81). -/
def exec (i : Instr) (s : State) : Host.Outcome State Fault Refusal :=
  match i with
  -- 40_system.md
  | .nop => Sys2Proof.Machine.execNop s
  | .statrd => Sys2Proof.Machine.execStatrd s
  | .inford => Sys2Proof.Machine.execInford s
  | .errclr => Sys2Proof.Machine.execErrclr s
  -- 42_gf2poly.md
  | .pclr rd => Sys2Proof.Machine.execPclr rd s
  | .pseti rd imm => Sys2Proof.Machine.execPseti rd imm s
  | .pldc rd => Sys2Proof.Machine.execPldc rd s
  | .pwl rd ix imm => Sys2Proof.Machine.execPwl rd ix imm s
  | .prl ra ix => Sys2Proof.Machine.execPrl ra ix s
  | .padd rd ra rb => Sys2Proof.Machine.execPadd rd ra rb s
  | .pshu rd ra imm => Sys2Proof.Machine.execPshu rd ra imm s
  | .pshd rd ra imm => Sys2Proof.Machine.execPshd rd ra imm s
  | .pdeg ra => Sys2Proof.Machine.execPdeg ra s
  | .pmul rd ra rb => Sys2Proof.Machine.execPmul rd ra rb s
  | .psqr rd ra => Sys2Proof.Machine.execPsqr rd ra s
  | .pred rd ra rb => Sys2Proof.Machine.execPred rd ra rb s
  | .ppow rd ra rb ix => Sys2Proof.Machine.execPpow rd ra rb ix s
  -- 41_biguint128.md
  | .ufrom32 rd imm => Sys2Proof.Machine.execUfrom32 rd imm s
  | .uwl rd ix imm => Sys2Proof.Machine.execUwl rd ix imm s
  | .url ra ix => Sys2Proof.Machine.execUrl ra ix s
  | .umul rd ra rb => Sys2Proof.Machine.execUmul rd ra rb s
  -- 43_codec.md
  | .sbwr imm => Sys2Proof.Machine.execSbwr imm s
  | .sbrd imm => Sys2Proof.Machine.execSbrd imm s
  | .slenw imm => Sys2Proof.Machine.execSlenw imm s
  | .slenr => Sys2Proof.Machine.execSlenr s
  | .uparse rd => Sys2Proof.Machine.execUparse rd s
  | .ufmt ra => Sys2Proof.Machine.execUfmt ra s
  | .pparse rd => Sys2Proof.Machine.execPparse rd s
  | .pfmt ra => Sys2Proof.Machine.execPfmt ra s
  -- 44_jump.md
  | .gww ix imm => Sys2Proof.Machine.execGww ix imm s
  | .grw ix => Sys2Proof.Machine.execGrw ix s
  | .arw ix => Sys2Proof.Machine.execArw ix s
  | .gstep => Sys2Proof.Machine.execGstep s
  | .gapply ra => Sys2Proof.Machine.execGapply ra s
  | .jcomp imm => Sys2Proof.Machine.execJcomp imm s
  | .japply => Sys2Proof.Machine.execJapply s
  | .jump imm => Sys2Proof.Machine.execJump imm s

end Sys2Proof.Machine
end

