-- ==== Sys2Proof/Machine/Step.lean ====
section
/-! DEFINITION. One step: the next input of the host (30_encoding.md R70, R81; 70_reset_and_hazards.md R270, R274). -/

namespace Sys2Proof.Machine

/-- One command word, well-formed or not (30_encoding.md R81). -/
def issue (cw : CmdWord) (s : State) : Host.Outcome State Fault Refusal :=
  match decode cw with
  | .ok i => exec i s
  | .error _ => illegal cw s

/-- One step. With no input XJE is idle and holds its state (60_exceptions.md R258). -/
def step (s : State) : Host.Outcome State Fault Refusal :=
  match s.input with
  | [] => .next s
  | .reset :: rest => .next (s.withInput rest).hostReset
  | .command cw :: rest => issue cw (s.withInput rest)

/-- `s` with one word given next by the host: XJE does not fetch (10_state.md R32), so the word of a table row goes to
the front of the host's input (notes/assumptions/1.md). -/
def State.withFetchWord (s : State) (nbits w : Nat) : State :=
  s.withInput (.command (BitVec.ofNat 64 (w % 2 ^ nbits)) :: s.input)

end Sys2Proof.Machine
end

