-- ==== Sys2Proof/Machine/Assembler.lean ====
section
/-! DEFINITION. The assembler side (30_encoding.md R79, R80): the text of a command and the pseudo-commands. Nothing
in the machine uses it. -/

namespace Sys2Proof.Machine

/-- `Pn` (R79). -/
def pName (r : PReg) : String := "P" ++ toString r.val

/-- `Un` (R79). -/
def uName (r : UReg) : String := "U" ++ toString r.val

/-- A number, in decimal (R79). -/
def numText {w : Nat} (x : BitVec w) : String := toString x.toNat

/-- The mnemonic and then the operands separated by commas, in the order of the "operands" column (R75, R79). -/
def asmLine (mnemonic : String) (operands : List String) : String :=
  match operands with
  | [] => mnemonic
  | _ :: _ => mnemonic ++ " " ++ String.intercalate ", " operands

/-- The assembler text of a command (R79). -/
def asm : Instr → String
  | .nop => asmLine "NOP" []
  | .statrd => asmLine "STATRD" []
  | .inford => asmLine "INFORD" []
  | .errclr => asmLine "ERRCLR" []
  | .pclr rd => asmLine "PCLR" [pName rd]
  | .pseti rd imm => asmLine "PSETI" [pName rd, numText imm]
  | .pldc rd => asmLine "PLDC" [pName rd]
  | .pwl rd ix imm => asmLine "PWL" [pName rd, numText ix, numText imm]
  | .prl ra ix => asmLine "PRL" [pName ra, numText ix]
  | .padd rd ra rb => asmLine "PADD" [pName rd, pName ra, pName rb]
  | .pshu rd ra imm => asmLine "PSHU" [pName rd, pName ra, numText imm]
  | .pshd rd ra imm => asmLine "PSHD" [pName rd, pName ra, numText imm]
  | .pdeg ra => asmLine "PDEG" [pName ra]
  | .pmul rd ra rb => asmLine "PMUL" [pName rd, pName ra, pName rb]
  | .psqr rd ra => asmLine "PSQR" [pName rd, pName ra]
  | .pred rd ra rb => asmLine "PRED" [pName rd, pName ra, pName rb]
  | .ppow rd ra rb ix => asmLine "PPOW" [pName rd, pName ra, uName rb, pName ix]
  | .ufrom32 rd imm => asmLine "UFROM32" [uName rd, numText imm]
  | .uwl rd ix imm => asmLine "UWL" [uName rd, numText ix, numText (immLimb imm)]
  | .url ra ix => asmLine "URL" [uName ra, numText ix]
  | .umul rd ra rb => asmLine "UMUL" [uName rd, uName ra, uName rb]
  | .sbwr imm => asmLine "SBWR" [numText (immAddr imm), numText (immByte imm)]
  | .sbrd imm => asmLine "SBRD" [numText imm]
  | .slenw imm => asmLine "SLENW" [numText imm]
  | .slenr => asmLine "SLENR" []
  | .uparse rd => asmLine "UPARSE" [uName rd]
  | .ufmt ra => asmLine "UFMT" [uName ra]
  | .pparse rd => asmLine "PPARSE" [pName rd]
  | .pfmt ra => asmLine "PFMT" [pName ra]
  | .gww ix imm => asmLine "GWW" [numText ix, numText imm]
  | .grw ix => asmLine "GRW" [numText ix]
  | .arw ix => asmLine "ARW" [numText ix]
  | .gstep => asmLine "GSTEP" []
  | .gapply ra => asmLine "GAPPLY" [pName ra]
  | .jcomp imm => asmLine "JCOMP" [numText imm]
  | .japply => asmLine "JAPPLY" []
  | .jump imm => asmLine "JUMP" [numText imm]

/-- The pseudo-commands (R80). -/
inductive Pseudo where
  | pone (rd : PReg)
  | px (rd : PReg)
  | pmov (rd ra : PReg)
  | sbstr (text : Text)
  deriving DecidableEq, Repr

/-- `SBWR a, c0 ; SBWR a+1, c1 ; ...` (R80; the immediate as R73 lays it out). -/
def storeText (a : Nat) : Text → List Instr
  | [] => []
  | c :: t => .sbwr (BitVec.ofNat 16 a ++ 0#8 ++ c) :: storeText (a + 1) t

/-- The expansion of a pseudo-command (R80). -/
def Pseudo.expand : Pseudo → List Instr
  | .pone rd => [.pseti rd 1#32]
  | .px rd => [.pseti rd 2#32]
  | .pmov rd ra => [.pshu rd ra 0#32]
  | .sbstr t => storeText 0 t ++ [.slenw (BitVec.ofNat 32 t.length)]

/-- Commands one after another (20_memory.md R57; 70_reset_and_hazards.md R274). -/
def execAll : List Instr → State → Result
  | [], s => .next s
  | i :: l, s =>
    match exec i s with
    | .next t => execAll l t
    | .fault r => .fault r
    | .refused r => .refused r

end Sys2Proof.Machine
end

