-- ==== Sys2Proof/Machine/Schoolbook.lean ====
section
/-! DEFINITION. The limb realisation of `u_mul` that 41_biguint128.md R111 writes out, beside the value
`(a * b) mod 2^128` that `uMul` takes: 16-bit limbs, carry propagation, everything past limb 7 dropped. -/

namespace Sys2Proof.Machine

/-- The eight 16-bit limbs of an integer as numbers, limb 0 first (10_state.md R24). -/
def uintLimbs (v : U128) : List Nat := (List.range 8).map (fun j => (v.extractLsb' (16 * j) 16).toNat)

/-- The integer with the given limbs, `sum over j of limb_j * 2^(16j)` (10_state.md R24). -/
def ofUintLimbs (l : List Nat) : U128 := BitVec.ofNat 128 (l.foldr (fun limb rest => limb + 65536 * rest) 0)

/-- The inner loop body of R111 on the result limbs and the carry. -/
def schoolbookCell (ai : Nat) (b : List Nat) (i : Nat) (rc : List Nat × Nat) (j : Nat) : List Nat × Nat :=
  let t := rc.1.getD (i + j) 0 + ai * b.getD j 0 + rc.2
  (rc.1.set (i + j) (t % 65536), t / 65536)

/-- The outer loop body of R111: one limb of `a` times the limbs `0..7-i` of `b`; the last carry is dropped. -/
def schoolbookRow (a b : List Nat) (r : List Nat) (i : Nat) : List Nat :=
  ((List.range (8 - i)).foldl (schoolbookCell (a.getD i 0) b i) (r, 0)).1

/-- The schoolbook multiply of R111. -/
def schoolbookMul (a b : U128) : U128 :=
  ofUintLimbs ((List.range 8).foldl (schoolbookRow (uintLimbs a) (uintLimbs b)) (List.replicate 8 0))

end Sys2Proof.Machine
end

