-- ==== Sys2Proof/Safety.lean ====
section
/-! DEFINITION. What counts as a safe run, and the words the claims use: the states a command ends in, written as
plain record updates, and the register a command may write, written from the table of 10_state.md R20. -/

namespace Sys2Proof.Machine

/-- `s` after one response and nothing else. -/
abbrev answered (s : State) (status : BitVec 8) (data : Data) : State :=
  { s with responses := ⟨status, data⟩ :: s.responses }

/-- `s` after error entry with `code` and `info` (60_exceptions.md R248). -/
abbrev failed (s : State) (code : BitVec 8) (info : Data) : State :=
  { s with errcode := code, errinfo := info, responses := ⟨code, 0#32⟩ :: s.responses }

/-- The states a run can reach, as far as one state tells: the canonical buffer, `SLEN` at most 128 (10_state.md R27),
a legal `ERRCODE` (R28), and an `ERRINFO` that fits it (R29). -/
structure Inv (s : State) : Prop where
  sbCanonical : s.sb.wf = true
  slenRange : s.slen.toNat ≤ 128
  errcodeRange : s.errcode.toNat ≤ 4
  infoClear : s.errcode = 0#8 → s.errinfo = 0#32
  infoParse : s.errcode = 1#8 → s.errinfo.toNat < 128
  infoRange : s.errcode = 3#8 → 4 ≤ s.errinfo.toNat
  infoRedzero : s.errcode = 4#8 → s.errinfo = 0#32

/-- A safe run of `n` steps: it never stops, and ends in a state as above. -/
def SafeRun (n : Nat) (s : State) : Prop := ∃ t, Sys2Proof.core.run n s = .next t ∧ Inv t

/-- The `P` register a command writes when it succeeds (10_state.md R20, column "written by"). -/
def destP : Instr → Option PReg
  | .pclr rd | .pseti rd _ | .pldc rd | .pwl rd _ _ | .padd rd _ _ | .pshu rd _ _ | .pshd rd _ _ | .pmul rd _ _
  | .psqr rd _ | .pred rd _ _ | .ppow rd _ _ _ | .pparse rd => some rd
  | _ => none

/-- The `U` register a command writes when it succeeds (R20). -/
def destU : Instr → Option UReg
  | .ufrom32 rd _ | .uwl rd _ _ | .umul rd _ _ | .uparse rd => some rd
  | _ => none

/-- The commands that write `GEN` (R20). -/
def writesGen : Instr → Bool
  | .gww _ _ | .gstep | .gapply _ | .japply | .jump _ => true
  | _ => false

/-- The commands that write `ACC` (R20, R26). -/
def writesAcc : Instr → Bool
  | .gapply _ | .japply | .jump _ => true
  | _ => false

/-- The commands that write bytes of `SB` (R20). -/
def writesSb : Instr → Bool
  | .sbwr _ | .ufmt _ | .pfmt _ | .jcomp _ | .jump _ => true
  | _ => false

/-- The commands that write `SLEN` (R20). -/
def writesSlen : Instr → Bool
  | .slenw _ | .ufmt _ | .pfmt _ | .jcomp _ | .jump _ => true
  | _ => false

/-- How often a command that ends without error steps `T` (60_exceptions.md R255; 70_reset_and_hazards.md R277). -/
def stepsOfT : Instr → Nat
  | .gstep => 1
  | .gapply _ | .japply | .jump _ => 256
  | _ => 0

end Sys2Proof.Machine
end

