-- ==== Sys2Proof/Certificates/Slice0/Obligations.lean ====
section
/-! DEFINITION. The statements for the provers. Each docstring names the rule of spec/ it formalises. The words they
use beyond the model's own: a command word as a number, the text of a number, and a register as a true polynomial. -/

namespace Sys2Proof.Machine

/-- A command word as the number 30_encoding.md R71 makes of its fields (`rsv = 0`). -/
def word (op rd ra rb ix imm : Nat) : CmdWord :=
  BitVec.ofNat 64 (op + rd * 2 ^ 8 + ra * 2 ^ 12 + rb * 2 ^ 16 + ix * 2 ^ 20 + imm * 2 ^ 32)

/-- A register value as a polynomial over GF(2), without any bound on degrees (00_scope.md R8). -/
noncomputable def toPoly (x : Poly) : Polynomial (ZMod 2) :=
  ∑ i ∈ Finset.range 256, if x.getLsbD i then Polynomial.X ^ i else 0

/-- The sixteen digit characters, lowercase (43_codec.md R170, R172). -/
def digitChars : List Char := "0123456789abcdef".toList

/-- The value of a character that is a hex digit in either case (43_codec.md R170, ASCII). -/
def digitValue (c : Byte) : Option Nat := digitChars.idxOf? (Char.ofNat c.toNat).toLower

/-- The lowercase character of a digit, as a byte. -/
def digitByte (d : Nat) : Byte := BitVec.ofNat 8 (digitChars.getD d '0').toNat

/-- Every character of the string in `s` is a hex digit. -/
def allHex (s : State) : Prop := ∀ k < s.slen.toNat, (digitValue (s.sb.read k)).isSome

/-- The number the string in `s` writes, most significant digit first, before any truncation (43_codec.md R171). -/
def stringNumber (s : State) : Nat :=
  ∑ k ∈ Finset.range s.slen.toNat, (digitValue (s.sb.read k)).getD 0 * 16 ^ (s.slen.toNat - 1 - k)

/-- The first character of the string in `s` that is no hex digit stands at `k`. -/
def firstBad (s : State) (k : Nat) : Prop :=
  k < s.slen.toNat ∧ digitValue (s.sb.read k) = none ∧ ∀ j < k, (digitValue (s.sb.read j)).isSome

/-- `m` is `old` with the canonical text of `v` in its first `len` bytes (43_codec.md R172; 20_memory.md R60). -/
def holdsText (old m : Memory) (v len : Nat) : Prop :=
  1 ≤ len ∧ v < 16 ^ len ∧ (len = 1 ∨ 16 ^ (len - 1) ≤ v) ∧
  (∀ k < len, m.read k = digitByte (v / 16 ^ (len - 1 - k) % 16)) ∧
  (∀ k, len ≤ k → m.read k = old.read k)

/-- The XOR over the set coefficients `i` of `poly` of `T^i(s)` (44_jump.md R202). -/
def sumOfSteps (T : Gen → Gen) (s : Gen) (poly : Poly) : Gen :=
  (List.range 256).foldl (fun r i => if poly.getLsbD i then r ^^^ T^[i] s else r) 0#128

/-- The 256 states `T^255(s), ..., T(s), s` presented on the step port by one application, newest first. -/
def presented (T : Gen → Gen) (s : Gen) : List Gen := (List.range 256).reverse.map (fun i => T^[i] s)

end Sys2Proof.Machine

open Sys2Proof Sys2Proof.Machine

/-! ### The machine -/

/-- 30_encoding.md R81, third case: a step on a word that decodes is that command's own meaning, after the word is
taken from the host. -/
def Obligations.StepRunsDecodedCommand : Prop :=
  ∀ (s : State) (cw : CmdWord) (rest : List HostInput) (i : Instr),
    s.input = .command cw :: rest → decode cw = .ok i → step s = exec i { s with input := rest }

/-- 30_encoding.md R81 with 60_exceptions.md R242 and R245: LOCKED, ILLEGAL, or the command's rule, for every word. -/
def Obligations.DecodeOrderOfEveryWord : Prop :=
  ∀ (s : State) (cw : CmdWord) (rest : List HostInput), s.input = .command cw :: rest →
    (s.errcode ≠ 0#8 → (¬ ∃ i, decode cw = .ok i ∧ i.isSystem = true) →
      step s = .next (answered { s with input := rest } 5#8 0#32)) ∧
    (s.errcode = 0#8 → (¬ ∃ i, decode cw = .ok i) →
      step s = .next (failed { s with input := rest } 2#8 (BitVec.ofNat 32 (cw.toNat % 2 ^ 32)))) ∧
    (∀ i, decode cw = .ok i → (s.errcode = 0#8 ∨ i.isSystem = true) → step s = exec i { s with input := rest })

/-- 60_exceptions.md R258: with nothing given, XJE holds its state. -/
def Obligations.IdleHoldsState : Prop := ∀ s : State, s.input = [] → step s = .next s

/-- 70_reset_and_hazards.md R270, R271: the reset event, from any state, zeroes every bit of architectural state and
gives no response. That the host's record of the ports is kept is the model's choice (notes/assumptions/8.md). -/
def Obligations.ResetEventZeroesState : Prop :=
  ∀ (s : State) (rest : List HostInput), s.input = .reset :: rest →
    ∃ t, step s = .next t ∧ (∀ i : PReg, t.p[i] = 0#256) ∧ (∀ i : UReg, t.u[i] = 0#128) ∧ t.gen = 0#128 ∧
      t.acc = 0#128 ∧ (∀ a, t.sb.read a = 0#8) ∧ t.slen = 0#8 ∧ t.errcode = 0#8 ∧ t.errinfo = 0#32 ∧
      t.input = rest ∧ t.responses = s.responses ∧ t.stepPort = s.stepPort

/-- 30_encoding.md R77, 60_exceptions.md R248: nothing stops XJE; every state has a next state. -/
def Obligations.StepAlwaysAnswersNext : Prop := ∀ s : State, ∃ t, step s = .next t

/-- 30_encoding.md R74: one response for every word, well-formed or not, its data 0 unless its status is 0. -/
def Obligations.EveryWordGetsOneResponse : Prop :=
  ∀ (s : State) (cw : CmdWord) (rest : List HostInput), s.input = .command cw :: rest →
    ∃ t r, step s = .next t ∧ t.input = rest ∧ t.responses = r :: s.responses ∧ r.status.toNat ≤ 5 ∧
      (r.status ≠ 0#8 → r.data = 0#32)

/-- 60_exceptions.md R248: a word that ends in PARSE, ILLEGAL, RANGE or REDZERO was given while unlocked and changes
`ERRCODE` and `ERRINFO` alone; `T` is not stepped; the latched code is the response's. -/
def Obligations.FailingWordChangesOnlyTheLatch : Prop :=
  ∀ (s t : State) (cw : CmdWord) (rest : List HostInput) (r : Response),
    s.input = .command cw :: rest → step s = .next t → t.responses = r :: s.responses →
    1 ≤ r.status.toNat → r.status.toNat ≤ 4 →
    s.errcode = 0#8 ∧ r.data = 0#32 ∧
      t = { s with input := rest, errcode := r.status, errinfo := t.errinfo, responses := r :: s.responses }

/-- 40_system.md R103 ("the one way out of the locked state other than reset"), 60_exceptions.md R249, R250: while
locked, a step keeps the first error unless the host gives ERRCLR or resets. -/
def Obligations.LockLeftOnlyByErrclrOrReset : Prop :=
  ∀ s t : State, s.errcode ≠ 0#8 → step s = .next t →
    (t.errcode = s.errcode ∧ t.errinfo = s.errinfo) ∨ (∃ rest, s.input = .command 3#64 :: rest) ∨
      (∃ rest, s.input = .reset :: rest)

/-- 60_exceptions.md R243: the ten commands that raise RANGE, when, and with what `ERRINFO`, each as a well-formed
command (30_encoding.md R76 item 5 is the premise on the immediates of UWL and SBWR). -/
def Obligations.RangeErrors : Prop :=
  ∀ s : State, s.errcode = 0#8 →
    (∀ (r : PReg) (ix : Index) (imm : Data), 7 < ix.toNat →
      exec (.pwl r ix imm) s = .next (failed s 3#8 (BitVec.ofNat 32 ix.toNat)) ∧
      exec (.prl r ix) s = .next (failed s 3#8 (BitVec.ofNat 32 ix.toNat))) ∧
    (∀ (r : UReg) (ix : Index) (imm : Data), 7 < ix.toNat →
      (imm.toNat < 65536 → exec (.uwl r ix imm) s = .next (failed s 3#8 (BitVec.ofNat 32 ix.toNat))) ∧
      exec (.url r ix) s = .next (failed s 3#8 (BitVec.ofNat 32 ix.toNat))) ∧
    (∀ (ix : Index) (imm : Data), 3 < ix.toNat →
      exec (.gww ix imm) s = .next (failed s 3#8 (BitVec.ofNat 32 ix.toNat)) ∧
      exec (.grw ix) s = .next (failed s 3#8 (BitVec.ofNat 32 ix.toNat)) ∧
      exec (.arw ix) s = .next (failed s 3#8 (BitVec.ofNat 32 ix.toNat))) ∧
    (∀ imm : Data, imm.toNat / 256 % 256 = 0 → 128 ≤ imm.toNat / 65536 →
      exec (.sbwr imm) s = .next (failed s 3#8 (BitVec.ofNat 32 (imm.toNat / 65536)))) ∧
    (∀ imm : Data, 128 ≤ imm.toNat → exec (.sbrd imm) s = .next (failed s 3#8 imm)) ∧
    (∀ imm : Data, 128 < imm.toNat → exec (.slenw imm) s = .next (failed s 3#8 imm))

/-- 60_exceptions.md R244: PRED and PPOW raise REDZERO on a zero modulus, whatever the other operands; JCOMP and JUMP
never do. -/
def Obligations.RedzeroErrors : Prop :=
  ∀ s : State, s.errcode = 0#8 →
    (∀ rd ra rb : PReg, s.p[rb] = 0#256 → exec (.pred rd ra rb) s = .next (failed s 4#8 0#32)) ∧
    (∀ (rd ra : PReg) (rb : UReg) (ix : PReg), s.p[ix] = 0#256 →
      exec (.ppow rd ra rb ix) s = .next (failed s 4#8 0#32)) ∧
    (∀ (imm : Data) (t : State), exec (.jcomp imm) s = .next t ∨ exec (.jump imm) s = .next t → t.errcode ≠ 4#8)

/-- 60_exceptions.md R241: the five commands that read the string raise PARSE with the position of its first character
that is no hex digit, and nothing else is written. -/
def Obligations.ParseErrors : Prop :=
  ∀ (s : State) (k : Nat), s.errcode = 0#8 → firstBad s k →
    (∀ rd, exec (.uparse rd) s = .next (failed s 1#8 (BitVec.ofNat 32 k))) ∧
    (∀ rd, exec (.pparse rd) s = .next (failed s 1#8 (BitVec.ofNat 32 k))) ∧
    (∀ imm, exec (.jcomp imm) s = .next (failed s 1#8 (BitVec.ofNat 32 k))) ∧
    exec .japply s = .next (failed s 1#8 (BitVec.ofNat 32 k)) ∧
    (∀ imm, exec (.jump imm) s = .next (failed s 1#8 (BitVec.ofNat 32 k)))

/-- 10_state.md R20, column "written by", every row, and R26: no command writes a register outside its row of the
table; `STATUS` and `ERRINFO` are written by ERRCLR and by a failing command (response status 1 to 4) alone. -/
def Obligations.RegistersWrittenOnlyByTheirCommands : Prop :=
  ∀ (i : Instr) (s t : State), exec i s = .next t →
    (∀ r : PReg, destP i ≠ some r → t.p[r] = s.p[r]) ∧
    (∀ r : UReg, destU i ≠ some r → t.u[r] = s.u[r]) ∧
    (writesGen i = false → t.gen = s.gen) ∧
    (writesAcc i = false → t.acc = s.acc) ∧
    (writesSb i = false → t.sb = s.sb) ∧
    (writesSlen i = false → t.slen = s.slen) ∧
    (∀ r : Response, t.responses = r :: s.responses → i ≠ .errclr → r.status = 0#8 ∨ r.status = 5#8 →
      t.status = s.status ∧ t.errinfo = s.errinfo) ∧
    t.input = s.input

/-- 60_exceptions.md R255, 70_reset_and_hazards.md R277: how often a command steps `T`: never unless it ends without
error, and then as often as its own rule says. -/
def Obligations.StepPortTrafficOfEveryCommand : Prop :=
  ∀ (i : Instr) (s t : State) (r : Response), exec i s = .next t → t.responses = r :: s.responses →
    ∃ l, t.stepPort = l ++ s.stepPort ∧ l.length = if r.status = 0#8 then stepsOfT i else 0

/-! ### Words -/

/-- 30_encoding.md R75, R76: a word is a command exactly when `CW & mask = match` for some row of the table. -/
def Obligations.DecodeAgreesWithMasks : Prop :=
  ∀ cw : CmdWord,
    (∃ i, decode cw = .ok i) ↔ ∃ r ∈ opcodeTable, cw &&& r.mask = BitVec.ofNat 64 r.op.toNat

/-- Decoding the word of any well-formed command gives the command back, every operand at every value. -/
def Obligations.DecodeOfEncode : Prop := ∀ i : Instr, i.wellFormed = true → decode (encode i) = .ok i

/-- A word that decodes is the one word of its command, and the command is well-formed: no bit is dropped. -/
def Obligations.EncodeOfDecode : Prop :=
  ∀ (cw : CmdWord) (i : Instr), decode cw = .ok i → encode i = cw ∧ i.wellFormed = true

/-- 30_encoding.md R71, R72, R73, R75: the word of each row, as the number its fields make, decodes to its command. -/
def Obligations.DecodeOfRowWords : Prop :=
  (decode (word 0x00 0 0 0 0 0) = .ok .nop ∧ decode (word 0x01 0 0 0 0 0) = .ok .statrd ∧
    decode (word 0x02 0 0 0 0 0) = .ok .inford ∧ decode (word 0x03 0 0 0 0 0) = .ok .errclr) ∧
  (∀ (d a b m : PReg) (e : UReg) (j : Index) (imm : Data),
    decode (word 0x10 d 0 0 0 0) = .ok (.pclr d) ∧
    decode (word 0x11 d 0 0 0 imm.toNat) = .ok (.pseti d imm) ∧
    decode (word 0x12 d 0 0 0 0) = .ok (.pldc d) ∧
    decode (word 0x13 d 0 0 j.toNat imm.toNat) = .ok (.pwl d j imm) ∧
    decode (word 0x14 0 a 0 j.toNat 0) = .ok (.prl a j) ∧
    decode (word 0x15 d a b 0 0) = .ok (.padd d a b) ∧
    decode (word 0x16 d a 0 0 imm.toNat) = .ok (.pshu d a imm) ∧
    decode (word 0x17 d a 0 0 imm.toNat) = .ok (.pshd d a imm) ∧
    decode (word 0x18 0 a 0 0 0) = .ok (.pdeg a) ∧
    decode (word 0x19 d a b 0 0) = .ok (.pmul d a b) ∧
    decode (word 0x1A d a 0 0 0) = .ok (.psqr d a) ∧
    decode (word 0x1B d a b 0 0) = .ok (.pred d a b) ∧
    decode (word 0x1C d a e m 0) = .ok (.ppow d a e m)) ∧
  (∀ (d a b : UReg) (j : Index) (imm : Data),
    decode (word 0x20 d 0 0 0 imm.toNat) = .ok (.ufrom32 d imm) ∧
    (imm.toNat < 65536 → decode (word 0x21 d 0 0 j.toNat imm.toNat) = .ok (.uwl d j imm)) ∧
    decode (word 0x22 0 a 0 j.toNat 0) = .ok (.url a j) ∧
    decode (word 0x23 d a b 0 0) = .ok (.umul d a b)) ∧
  (∀ (d a : UReg) (pd pa : PReg) (imm : Data),
    (imm.toNat / 256 % 256 = 0 → decode (word 0x30 0 0 0 0 imm.toNat) = .ok (.sbwr imm)) ∧
    decode (word 0x31 0 0 0 0 imm.toNat) = .ok (.sbrd imm) ∧
    decode (word 0x32 0 0 0 0 imm.toNat) = .ok (.slenw imm) ∧
    decode (word 0x33 0 0 0 0 0) = .ok .slenr ∧
    decode (word 0x34 d 0 0 0 0) = .ok (.uparse d) ∧
    decode (word 0x35 0 a 0 0 0) = .ok (.ufmt a) ∧
    decode (word 0x36 pd 0 0 0 0) = .ok (.pparse pd) ∧
    decode (word 0x37 0 pa 0 0 0) = .ok (.pfmt pa)) ∧
  (∀ (a : PReg) (j : Index) (imm : Data),
    decode (word 0x40 0 0 0 j.toNat imm.toNat) = .ok (.gww j imm) ∧
    decode (word 0x41 0 0 0 j.toNat 0) = .ok (.grw j) ∧
    decode (word 0x42 0 0 0 j.toNat 0) = .ok (.arw j) ∧
    decode (word 0x43 0 0 0 0 0) = .ok .gstep ∧
    decode (word 0x44 0 a 0 0 0) = .ok (.gapply a) ∧
    decode (word 0x45 0 0 0 0 imm.toNat) = .ok (.jcomp imm) ∧
    decode (word 0x46 0 0 0 0 0) = .ok .japply ∧
    decode (word 0x47 0 0 0 0 imm.toNat) = .ok (.jump imm))

/-- The worked words of 30_encoding.md section 7 and 95_test_vectors.md section 2, one per format and two refused. -/
def Obligations.SpecExampleWords : Prop :=
  decode 0x0000000000000043#64 = .ok .gstep ∧ decode 0x0000000000000310#64 = .ok (.pclr 3) ∧
  decode 0x0000000000002018#64 = .ok (.pdeg 2) ∧ decode 0x0000000000100041#64 = .ok (.grw 1#4) ∧
  decode 0x0000000300000047#64 = .ok (.jump 3#32) ∧ decode 0x000000000000211A#64 = .ok (.psqr 1 2) ∧
  decode 0x0000000B00000311#64 = .ok (.pseti 3 0xB#32) ∧ decode 0x0000000000002022#64 = .ok (.url 2 0#4) ∧
  decode 0x0123456700300040#64 = .ok (.gww 3#4 0x01234567#32) ∧
  decode 0x000000000003241B#64 = .ok (.pred 4 2 3) ∧ decode 0x000000FF00000116#64 = .ok (.pshu 1 0 255#32) ∧
  decode 0x8000000000700513#64 = .ok (.pwl 5 7#4 0x80000000#32) ∧
  decode 0x000000000012021C#64 = .ok (.ppow 2 0 2 1) ∧ decode 0x0001004200000030#64 = .ok (.sbwr 0x00010042#32) ∧
  decode 0x0000000000000815#64 = .error .registerIndex ∧ decode 0x0000000001000000#64 = .error .reservedField

/-- 30_encoding.md R77: the 219 reserved opcodes, and what a word with one of them gets while unlocked. That the decoder
names such a word `reservedOpcode` also when it fails other checks is the model's choice (notes/assumptions/11.md). -/
def Obligations.ReservedOpcodesRaiseIllegal : Prop :=
  ((List.range 256).filter (fun op => decide ((0x04 ≤ op ∧ op ≤ 0x0F) ∨ (0x1D ≤ op ∧ op ≤ 0x1F) ∨
      (0x24 ≤ op ∧ op ≤ 0x2F) ∨ (0x38 ≤ op ∧ op ≤ 0x3F) ∨ (0x48 ≤ op ∧ op ≤ 0xFF)))).length = 219 ∧
  ∀ (s : State) (cw : CmdWord) (rest : List HostInput) (op : Nat), op = cw.toNat % 256 →
    (0x04 ≤ op ∧ op ≤ 0x0F) ∨ (0x1D ≤ op ∧ op ≤ 0x1F) ∨ (0x24 ≤ op ∧ op ≤ 0x2F) ∨ (0x38 ≤ op ∧ op ≤ 0x3F) ∨
      (0x48 ≤ op ∧ op ≤ 0xFF) →
    s.errcode = 0#8 → s.input = .command cw :: rest →
    decode cw = .error .reservedOpcode ∧
      step s = .next (failed { s with input := rest } 2#8 (BitVec.ofNat 32 (cw.toNat % 2 ^ 32)))

/-! ### Invariants and reset -/

/-- Every step keeps the invariant: the canonical buffer, `SLEN` at most 128 (10_state.md R27), a legal `ERRCODE`
(R28) and the `ERRINFO` that goes with it (R29). -/
def Obligations.StepKeepsInvariant : Prop := ∀ s t : State, Inv s → step s = .next t → Inv t

/-- The reset state meets the invariant. -/
def Obligations.ResetMeetsInvariant : Prop := Inv State.reset

/-- 10_state.md R36: every bit of architectural state is zero after reset. -/
def Obligations.ResetIsAllZero : Prop :=
  (∀ i : PReg, State.reset.p[i] = 0#256) ∧ (∀ i : UReg, State.reset.u[i] = 0#128) ∧ State.reset.gen = 0#128 ∧
  State.reset.acc = 0#128 ∧ (∀ a, State.reset.sb.read a = 0#8) ∧ State.reset.slen = 0#8 ∧
  State.reset.status = 0#32 ∧ State.reset.errinfo = 0#32

/-- From every state of the invariant, a run of any length is safe: it never stops and stays in the invariant,
whatever words and resets the host gives. -/
def Obligations.EveryRunIsSafe : Prop := ∀ (n : Nat) (s : State), Inv s → SafeRun n s

/-! ### System commands -/

/-- 40_system.md R100 to R103: the four system commands, their words and their effect, locked or not. -/
def Obligations.SystemCommands : Prop :=
  decode 0#64 = .ok .nop ∧ decode 1#64 = .ok .statrd ∧ decode 2#64 = .ok .inford ∧ decode 3#64 = .ok .errclr ∧
  ∀ s : State,
    exec .nop s = .next (answered s 0#8 0#32) ∧
    (∃ d : Data, d.toNat = s.errcode.toNat ∧ exec .statrd s = .next (answered s 0#8 d)) ∧
    exec .inford s = .next (answered s 0#8 s.errinfo) ∧
    exec .errclr s =
      .next { s with errcode := 0#8, errinfo := 0#32, responses := ⟨0#8, 0#32⟩ :: s.responses }

/-! ### Polynomial unit -/

/-- 42_gf2poly.md R141, R142, R143: PCLR, PSETI and PLDC, and the degree 128 that PDEG gives after PLDC. -/
def Obligations.PclrPsetiPldcLoadConstants : Prop :=
  ∀ (rd : PReg) (imm : Data),
    decode (word 0x10 rd 0 0 0 0) = .ok (.pclr rd) ∧ decode (word 0x11 rd 0 0 0 imm.toNat) = .ok (.pseti rd imm) ∧
    decode (word 0x12 rd 0 0 0 0) = .ok (.pldc rd) ∧
    ∀ s : State, s.errcode = 0#8 →
      exec (.pclr rd) s = .next { s with p := s.p.set rd 0#256, responses := ⟨0#8, 0#32⟩ :: s.responses } ∧
      (∃ v : Poly, v.toNat = imm.toNat ∧
        exec (.pseti rd imm) s = .next { s with p := s.p.set rd v, responses := ⟨0#8, 0#32⟩ :: s.responses }) ∧
      ∃ t, t = { s with p := s.p.set rd Config.params.charpoly, responses := ⟨0#8, 0#32⟩ :: s.responses } ∧
        exec (.pldc rd) s = .next t ∧ exec (.pdeg rd) t = .next (answered t 0#8 128#32)

/-- 42_gf2poly.md R144, R145: PWL replaces one limb and keeps the other 224 bits; PRL reads one limb; an index of 8 to
15 raises RANGE. -/
def Obligations.PolynomialLimbAccess : Prop :=
  ∀ (r : PReg) (ix : Index) (imm : Data),
    decode (word 0x13 r 0 0 ix.toNat imm.toNat) = .ok (.pwl r ix imm) ∧
    decode (word 0x14 0 r 0 ix.toNat 0) = .ok (.prl r ix) ∧
    ∀ s : State, s.errcode = 0#8 →
      (ix.toNat ≤ 7 →
        (∃ v : Poly,
          exec (.pwl r ix imm) s = .next { s with p := s.p.set r v, responses := ⟨0#8, 0#32⟩ :: s.responses } ∧
          ∀ k < 256, v.getLsbD k =
            if 32 * ix.toNat ≤ k ∧ k < 32 * ix.toNat + 32 then imm.getLsbD (k - 32 * ix.toNat) else s.p[r].getLsbD k) ∧
        ∃ d : Data, d.toNat = s.p[r].toNat / 2 ^ (32 * ix.toNat) % 2 ^ 32 ∧
          exec (.prl r ix) s = .next (answered s 0#8 d)) ∧
      (7 < ix.toNat →
        exec (.pwl r ix imm) s = .next (failed s 3#8 (BitVec.ofNat 32 ix.toNat)) ∧
        exec (.prl r ix) s = .next (failed s 3#8 (BitVec.ofNat 32 ix.toNat)))

/-- 42_gf2poly.md R130, R146: PADD adds coefficient by coefficient, any indices coinciding. -/
def Obligations.PaddAddsCoefficients : Prop :=
  ∀ rd ra rb : PReg, decode (word 0x15 rd ra rb 0 0) = .ok (.padd rd ra rb) ∧
    ∀ s : State, s.errcode = 0#8 →
      ∃ v : Poly,
        exec (.padd rd ra rb) s = .next { s with p := s.p.set rd v, responses := ⟨0#8, 0#32⟩ :: s.responses } ∧
        ∀ k < 256, v.getLsbD k = (s.p[ra].getLsbD k ^^ s.p[rb].getLsbD k)

/-- 42_gf2poly.md R131, R132, R147, R148: PSHU and PSHD move coefficients by `n`, for every 32-bit `n`. -/
def Obligations.ShiftsMoveCoefficients : Prop :=
  ∀ (rd ra : PReg) (imm : Data),
    decode (word 0x16 rd ra 0 0 imm.toNat) = .ok (.pshu rd ra imm) ∧
    decode (word 0x17 rd ra 0 0 imm.toNat) = .ok (.pshd rd ra imm) ∧
    ∀ s : State, s.errcode = 0#8 →
      (∃ v : Poly,
        exec (.pshu rd ra imm) s = .next { s with p := s.p.set rd v, responses := ⟨0#8, 0#32⟩ :: s.responses } ∧
        ∀ k < 256, v.getLsbD k = if imm.toNat ≤ k then s.p[ra].getLsbD (k - imm.toNat) else false) ∧
      ∃ v : Poly,
        exec (.pshd rd ra imm) s = .next { s with p := s.p.set rd v, responses := ⟨0#8, 0#32⟩ :: s.responses } ∧
        ∀ k < 256, v.getLsbD k = if k + imm.toNat ≤ 255 then s.p[ra].getLsbD (k + imm.toNat) else false

/-- 42_gf2poly.md R133, R149: PDEG answers the index of the highest set coefficient, and -1 for zero. -/
def Obligations.PdegFindsHighestCoefficient : Prop :=
  ∀ ra : PReg, decode (word 0x18 0 ra 0 0 0) = .ok (.pdeg ra) ∧
    ∀ s : State, s.errcode = 0#8 →
      (s.p[ra] = 0#256 → exec (.pdeg ra) s = .next (answered s 0#8 0xFFFFFFFF#32)) ∧
      ∀ k, s.p[ra].getLsbD k = true → (∀ j, k < j → s.p[ra].getLsbD j = false) →
        exec (.pdeg ra) s = .next (answered s 0#8 (BitVec.ofNat 32 k))

/-- 42_gf2poly.md R134, R135, R150, R151: coefficient `k` of PMUL's result is the XOR over `i + j = k` of the
coefficients' products; PSQR spreads the coefficients below 128 and loses the others. -/
def Obligations.PmulPsqrCoefficients : Prop :=
  ∀ rd ra rb : PReg,
    decode (word 0x19 rd ra rb 0 0) = .ok (.pmul rd ra rb) ∧ decode (word 0x1A rd ra 0 0 0) = .ok (.psqr rd ra) ∧
    ∀ s : State, s.errcode = 0#8 →
      (∃ v : Poly,
        exec (.pmul rd ra rb) s = .next { s with p := s.p.set rd v, responses := ⟨0#8, 0#32⟩ :: s.responses } ∧
        ∀ k < 256, v.getLsbD k =
          (List.range (k + 1)).foldl (fun b i => b ^^ (s.p[ra].getLsbD (k - i) && s.p[rb].getLsbD i)) false) ∧
      ∃ v : Poly,
        exec (.psqr rd ra) s = .next { s with p := s.p.set rd v, responses := ⟨0#8, 0#32⟩ :: s.responses } ∧
        ∀ k < 128, v.getLsbD (2 * k) = s.p[ra].getLsbD k ∧ v.getLsbD (2 * k + 1) = false

/-- 42_gf2poly.md R139, R152: PRED leaves the remainder of true polynomial division, for every dividend and every
nonzero modulus; a zero modulus raises REDZERO. -/
def Obligations.PredLeavesTheRemainder : Prop :=
  ∀ rd ra rb : PReg, decode (word 0x1B rd ra rb 0 0) = .ok (.pred rd ra rb) ∧
    ∀ s : State, s.errcode = 0#8 →
      (s.p[rb] = 0#256 → exec (.pred rd ra rb) s = .next (failed s 4#8 0#32)) ∧
      (s.p[rb] ≠ 0#256 →
        ∃ v : Poly,
          exec (.pred rd ra rb) s = .next { s with p := s.p.set rd v, responses := ⟨0#8, 0#32⟩ :: s.responses } ∧
          toPoly v = toPoly s.p[ra] % toPoly s.p[rb])

/-- 42_gf2poly.md R137, R153: PPOW runs the square-and-multiply sequence over all 128 exponent bits, least significant
first, for every base and every nonzero modulus; a zero modulus raises REDZERO. -/
def Obligations.PpowSquaresAndMultiplies : Prop :=
  ∀ (rd ra : PReg) (rb : UReg) (ix : PReg), decode (word 0x1C rd ra rb ix 0) = .ok (.ppow rd ra rb ix) ∧
    ∀ s : State, s.errcode = 0#8 →
      (s.p[ix] = 0#256 → exec (.ppow rd ra rb ix) s = .next (failed s 4#8 0#32)) ∧
      (s.p[ix] ≠ 0#256 →
        ∃ acc base : Nat → Poly,
          acc 0 = 1#256 ∧ base 0 = s.p[ra] ∧
          (∀ i < 128,
            acc (i + 1) = (if s.u[rb].getLsbD i then pRed (pMul (acc i) (base i)) s.p[ix] else acc i) ∧
            base (i + 1) = pRed (pSqr (base i)) s.p[ix]) ∧
          exec (.ppow rd ra rb ix) s =
            .next { s with p := s.p.set rd (acc 128), responses := ⟨0#8, 0#32⟩ :: s.responses })

/-- 42_gf2poly.md R140: inside its contract `p_pow` is the true power modulo `m`, and the named cases outside it. -/
def Obligations.PpowIsTheTruePower : Prop :=
  ∀ (base m : Poly) (e : U128), m ≠ 0#256 →
    (pDeg base ≤ 127 → 1 ≤ pDeg m → pDeg m ≤ 128 →
      toPoly (pPow base e m) = toPoly base ^ e.toNat % toPoly m) ∧
    pPow base 0#128 m = 1#256 ∧ pPow base 1#128 m = pRed base m ∧ (e ≠ 0#128 → pPow 0#256 e m = 0#256)

/-- 42_gf2poly.md R138: `p_mul` is the true product exactly when an operand is zero or the degrees sum to at most 255;
`p_sqr` the true square exactly when the degree is at most 127. -/
def Obligations.PmulIsTheTrueProduct : Prop :=
  ∀ x y : Poly,
    (toPoly (pMul x y) = toPoly x * toPoly y ↔ x = 0#256 ∨ y = 0#256 ∨ pDeg x + pDeg y ≤ 255) ∧
    (toPoly (pSqr x) = toPoly x ^ 2 ↔ pDeg x ≤ 127)

/-- 42_gf2poly.md R154: the ring laws, the third with the restriction of 90_conflicts.md C1. -/
def Obligations.RingLaws : Prop :=
  ∀ a b c : Poly,
    pAdd a b = pAdd b a ∧ pAdd (pAdd a b) c = pAdd a (pAdd b c) ∧
    (a ≠ 0#256 → b = 0#256 ∨ pDeg a + pDeg b ≤ 255 → pRed (pMul a b) a = 0#256)

/-! ### Integer unit -/

/-- 41_biguint128.md R110, R111, R114, R117: UFROM32 loads the 32-bit value; UMUL leaves the product modulo 2^128. -/
def Obligations.Ufrom32UmulValues : Prop :=
  ∀ (rd ra rb : UReg) (imm : Data),
    decode (word 0x20 rd 0 0 0 imm.toNat) = .ok (.ufrom32 rd imm) ∧
    decode (word 0x23 rd ra rb 0 0) = .ok (.umul rd ra rb) ∧
    ∀ s : State, s.errcode = 0#8 →
      (∃ v : U128, v.toNat = imm.toNat ∧
        exec (.ufrom32 rd imm) s = .next { s with u := s.u.set rd v, responses := ⟨0#8, 0#32⟩ :: s.responses }) ∧
      ∃ v : U128, v.toNat = s.u[ra].toNat * s.u[rb].toNat % 2 ^ 128 ∧
        exec (.umul rd ra rb) s = .next { s with u := s.u.set rd v, responses := ⟨0#8, 0#32⟩ :: s.responses }

/-- 41_biguint128.md R115, R116: a well-formed UWL (`imm[31:16] = 0`) replaces one limb and keeps the other 112 bits;
URL reads one limb; an index of 8 to 15 raises RANGE. -/
def Obligations.IntegerLimbAccess : Prop :=
  ∀ (r : UReg) (ix : Index) (imm : Data),
    (imm.toNat < 65536 → decode (word 0x21 r 0 0 ix.toNat imm.toNat) = .ok (.uwl r ix imm)) ∧
    (65536 ≤ imm.toNat → decode (word 0x21 r 0 0 ix.toNat imm.toNat) = .error .immediateBits) ∧
    decode (word 0x22 0 r 0 ix.toNat 0) = .ok (.url r ix) ∧
    ∀ s : State, s.errcode = 0#8 →
      (ix.toNat ≤ 7 →
        (imm.toNat < 65536 → ∃ v : U128,
          exec (.uwl r ix imm) s = .next { s with u := s.u.set r v, responses := ⟨0#8, 0#32⟩ :: s.responses } ∧
          ∀ k < 128, v.getLsbD k =
            if 16 * ix.toNat ≤ k ∧ k < 16 * ix.toNat + 16 then imm.getLsbD (k - 16 * ix.toNat) else s.u[r].getLsbD k) ∧
        ∃ d : Data, d.toNat = s.u[r].toNat / 2 ^ (16 * ix.toNat) % 2 ^ 16 ∧
          exec (.url r ix) s = .next (answered s 0#8 d)) ∧
      (7 < ix.toNat →
        (imm.toNat < 65536 → exec (.uwl r ix imm) s = .next (failed s 3#8 (BitVec.ofNat 32 ix.toNat))) ∧
        exec (.url r ix) s = .next (failed s 3#8 (BitVec.ofNat 32 ix.toNat)))

/-- 41_biguint128.md R111 ("The two descriptions agree"): `u_mul` is the product modulo 2^128, and so is the schoolbook
limb multiply. -/
def Obligations.SchoolbookMultiplyIsTheProduct : Prop :=
  ∀ a b : U128, (uMul a b).toNat = a.toNat * b.toNat % 2 ^ 128 ∧ schoolbookMul a b = uMul a b

/-! ### String buffer and codec -/

/-- 43_codec.md R174, R175; 20_memory.md R56: a well-formed SBWR (`imm[15:8] = 0`) stores one byte at the address of its
immediate and nothing else; SBRD reads one; an address of 128 or more raises RANGE. -/
def Obligations.StringBufferAccess : Prop :=
  ∀ imm : Data,
    (imm.toNat / 256 % 256 = 0 → decode (word 0x30 0 0 0 0 imm.toNat) = .ok (.sbwr imm)) ∧
    (imm.toNat / 256 % 256 ≠ 0 → decode (word 0x30 0 0 0 0 imm.toNat) = .error .immediateBits) ∧
    decode (word 0x31 0 0 0 0 imm.toNat) = .ok (.sbrd imm) ∧
    ∀ s : State, s.errcode = 0#8 →
      (imm.toNat / 256 % 256 = 0 → imm.toNat / 65536 < 128 →
        ∃ m : Memory,
          exec (.sbwr imm) s = .next { s with sb := m, responses := ⟨0#8, 0#32⟩ :: s.responses } ∧
          m.read (imm.toNat / 65536) = BitVec.ofNat 8 (imm.toNat % 256) ∧
          ∀ a, a ≠ imm.toNat / 65536 → m.read a = s.sb.read a) ∧
      (imm.toNat / 256 % 256 = 0 → 128 ≤ imm.toNat / 65536 →
        exec (.sbwr imm) s = .next (failed s 3#8 (BitVec.ofNat 32 (imm.toNat / 65536)))) ∧
      (imm.toNat < 128 →
        exec (.sbrd imm) s = .next (answered s 0#8 (BitVec.ofNat 32 (s.sb.read imm.toNat).toNat))) ∧
      (128 ≤ imm.toNat → exec (.sbrd imm) s = .next (failed s 3#8 imm))

/-- 43_codec.md R176, R177: SLENW sets the length, 0 to 128, and changes no byte; SLENR reads it. -/
def Obligations.StringLengthAccess : Prop :=
  ∀ imm : Data,
    decode (word 0x32 0 0 0 0 imm.toNat) = .ok (.slenw imm) ∧ decode (word 0x33 0 0 0 0 0) = .ok .slenr ∧
    ∀ s : State, s.errcode = 0#8 →
      (imm.toNat ≤ 128 →
        ∃ n : BitVec 8, n.toNat = imm.toNat ∧
          exec (.slenw imm) s = .next { s with slen := n, responses := ⟨0#8, 0#32⟩ :: s.responses }) ∧
      (128 < imm.toNat → exec (.slenw imm) s = .next (failed s 3#8 imm)) ∧
      ∃ d : Data, d.toNat = s.slen.toNat ∧ exec .slenr s = .next (answered s 0#8 d)

/-- 43_codec.md R171, R178, R180: UPARSE and PPARSE on a string of hex digits write the number it stands for, truncated
from the most significant side to 128 and to 256 bits; on any other string they raise PARSE and write no register. -/
def Obligations.ParseCommandsReadTheNumber : Prop :=
  (∀ (rd : UReg), decode (word 0x34 rd 0 0 0 0) = .ok (.uparse rd)) ∧
  (∀ (rd : PReg), decode (word 0x36 rd 0 0 0 0) = .ok (.pparse rd)) ∧
  ∀ s : State, s.errcode = 0#8 →
    (allHex s →
      (∀ rd : UReg, ∃ v : U128, v.toNat = stringNumber s % 2 ^ 128 ∧
        exec (.uparse rd) s = .next { s with u := s.u.set rd v, responses := ⟨0#8, 0#32⟩ :: s.responses }) ∧
      ∀ rd : PReg, ∃ v : Poly, v.toNat = stringNumber s % 2 ^ 256 ∧
        exec (.pparse rd) s = .next { s with p := s.p.set rd v, responses := ⟨0#8, 0#32⟩ :: s.responses }) ∧
    (¬ allHex s →
      ∃ k, firstBad s k ∧ (∀ rd : UReg, exec (.uparse rd) s = .next (failed s 1#8 (BitVec.ofNat 32 k))) ∧
        ∀ rd : PReg, exec (.pparse rd) s = .next (failed s 1#8 (BitVec.ofNat 32 k)))

/-- 43_codec.md R172, R179, R181; 20_memory.md R60: UFMT and PFMT leave the canonical lowercase text of the register at
address 0, its length in `SLEN` and in the response, and every byte beyond it unchanged. -/
def Obligations.FormatCommandsWriteCanonicalText : Prop :=
  (∀ (ra : UReg), decode (word 0x35 0 ra 0 0 0) = .ok (.ufmt ra)) ∧
  (∀ (ra : PReg), decode (word 0x37 0 ra 0 0 0) = .ok (.pfmt ra)) ∧
  ∀ s : State, s.errcode = 0#8 →
    (∀ ra : UReg, ∃ (m : Memory) (len : Nat), len ≤ 32 ∧ holdsText s.sb m s.u[ra].toNat len ∧
      exec (.ufmt ra) s = .next { s with
        sb := m, slen := BitVec.ofNat 8 len, responses := ⟨0#8, BitVec.ofNat 32 len⟩ :: s.responses }) ∧
    ∀ ra : PReg, ∃ (m : Memory) (len : Nat), len ≤ 64 ∧ holdsText s.sb m s.p[ra].toNat len ∧
      exec (.pfmt ra) s = .next { s with
        sb := m, slen := BitVec.ofNat 8 len, responses := ⟨0#8, BitVec.ofNat 32 len⟩ :: s.responses }

/-- 43_codec.md R173: parsing the canonical text of a value gives the value, as a function at every width and as the
commands UFMT, UPARSE and PFMT, PPARSE in sequence. -/
def Obligations.HexRoundTrip : Prop :=
  (∀ (w : Nat) (v : BitVec w), parseHex w (toHex v) = .ok v) ∧
  (∀ (ra rd : UReg) (s t : State), s.errcode = 0#8 → exec (.ufmt ra) s = .next t →
    exec (.uparse rd) t = .next { t with u := t.u.set rd s.u[ra], responses := ⟨0#8, 0#32⟩ :: t.responses }) ∧
  (∀ (ra rd : PReg) (s t : State), s.errcode = 0#8 → exec (.pfmt ra) s = .next t →
    exec (.pparse rd) t = .next { t with p := t.p.set rd s.p[ra], responses := ⟨0#8, 0#32⟩ :: t.responses })

/-- 20_memory.md R61: dropping characters from the front of an over-long string of hex digits until 128 remain changes
the value of neither width. -/
def Obligations.FrontTruncationKeepsTheValue : Prop :=
  ∀ t : Text, 128 < t.length → (∀ c ∈ t, (digitValue c).isSome) →
    parseHex 128 (t.drop (t.length - 128)) = parseHex 128 t ∧
    parseHex 256 (t.drop (t.length - 128)) = parseHex 256 t

/-- 20_memory.md R60: no codec or jump command reads a byte at or above `SLEN`: two states that differ in such bytes
alone give next states that differ in bytes beyond their common `SLEN` alone. -/
def Obligations.BytesBeyondTheStringAreNotRead : Prop :=
  ∀ (i : Instr) (s t : State) (m : Memory),
    ((∃ r, i = .uparse r) ∨ (∃ r, i = .pparse r) ∨ (∃ r, i = .ufmt r) ∨ (∃ r, i = .pfmt r) ∨
      (∃ x, i = .jcomp x) ∨ i = .japply ∨ ∃ x, i = .jump x) →
    (∀ a < s.slen.toNat, m.read a = s.sb.read a) → exec i s = .next t →
    ∃ m' : Memory, exec i { s with sb := m } = .next { t with sb := m' } ∧
      ∀ a < t.slen.toNat, m'.read a = t.sb.read a

/-! ### Jump engine -/

/-- 44_jump.md R205, R206, R207: GWW replaces one word of `GEN` and keeps the other 96 bits; GRW and ARW read one word;
an index of 4 to 15 raises RANGE. -/
def Obligations.GeneratorWordAccess : Prop :=
  ∀ (ix : Index) (imm : Data),
    decode (word 0x40 0 0 0 ix.toNat imm.toNat) = .ok (.gww ix imm) ∧
    decode (word 0x41 0 0 0 ix.toNat 0) = .ok (.grw ix) ∧ decode (word 0x42 0 0 0 ix.toNat 0) = .ok (.arw ix) ∧
    ∀ s : State, s.errcode = 0#8 →
      (ix.toNat ≤ 3 →
        (∃ g : Gen,
          exec (.gww ix imm) s = .next { s with gen := g, responses := ⟨0#8, 0#32⟩ :: s.responses } ∧
          ∀ k < 128, g.getLsbD k =
            if 32 * ix.toNat ≤ k ∧ k < 32 * ix.toNat + 32 then imm.getLsbD (k - 32 * ix.toNat) else s.gen.getLsbD k) ∧
        (∃ d : Data, d.toNat = s.gen.toNat / 2 ^ (32 * ix.toNat) % 2 ^ 32 ∧
          exec (.grw ix) s = .next (answered s 0#8 d)) ∧
        ∃ d : Data, d.toNat = s.acc.toNat / 2 ^ (32 * ix.toNat) % 2 ^ 32 ∧
          exec (.arw ix) s = .next (answered s 0#8 d)) ∧
      (3 < ix.toNat →
        exec (.gww ix imm) s = .next (failed s 3#8 (BitVec.ofNat 32 ix.toNat)) ∧
        exec (.grw ix) s = .next (failed s 3#8 (BitVec.ofNat 32 ix.toNat)) ∧
        exec (.arw ix) s = .next (failed s 3#8 (BitVec.ofNat 32 ix.toNat)))

/-- 44_jump.md R208: GSTEP applies `T` to `GEN` once, through the step port, and changes nothing else. -/
def Obligations.GstepAppliesT : Prop :=
  decode (word 0x43 0 0 0 0 0) = .ok .gstep ∧
  ∀ s : State, s.errcode = 0#8 →
    exec .gstep s = .next { s with
      gen := Config.params.step s.gen, stepPort := s.gen :: s.stepPort, responses := ⟨0#8, 0#32⟩ :: s.responses }

/-- 44_jump.md R202: for any function `T`, the applicator's result is the XOR over the set coefficients of `T^i(gen)`,
and it presents `gen, T(gen), ..., T^255(gen)` on the step port, whatever the polynomial. -/
def Obligations.ApplicatorSumsTheSteps : Prop :=
  ∀ (T : Gen → Gen) (gen : Gen) (poly : Poly),
    gApply T gen poly = sumOfSteps T gen poly ∧ (applyRun T gen poly).port = presented T gen

/-- 44_jump.md R209: GAPPLY leaves `GEN` and `ACC` equal to the sum over the register's coefficients; 256 steps of `T`
are made and nothing else changes. -/
def Obligations.GapplyAppliesTheRegister : Prop :=
  ∀ ra : PReg, decode (word 0x44 0 ra 0 0 0) = .ok (.gapply ra) ∧
    ∀ s : State, s.errcode = 0#8 →
      exec (.gapply ra) s = .next { s with
        gen := sumOfSteps Config.params.step s.gen s.p[ra], acc := sumOfSteps Config.params.step s.gen s.p[ra],
        stepPort := presented Config.params.step s.gen ++ s.stepPort, responses := ⟨0#8, 0#32⟩ :: s.responses }

/-- 44_jump.md R210: on a string of hex digits JCOMP leaves the text of `x^e mod CHARPOLY`, at most 32 digits, with
`e = (multiplier * base) mod 2^128`, and changes no `P` or `U` register, nor `GEN` or `ACC`; on any other string it
raises PARSE and nothing else is written. -/
def Obligations.JcompComputesTheJumpPolynomial : Prop :=
  ∀ imm : Data, decode (word 0x45 0 0 0 0 imm.toNat) = .ok (.jcomp imm) ∧
    ∀ s : State, s.errcode = 0#8 →
      (allHex s →
        ∃ (jp : Poly) (m : Memory) (len : Nat),
          toPoly jp = Polynomial.X ^ (imm.toNat * (stringNumber s % 2 ^ 128) % 2 ^ 128) %
            toPoly Config.params.charpoly ∧
          len ≤ 32 ∧ holdsText s.sb m jp.toNat len ∧
          exec (.jcomp imm) s = .next { s with
            sb := m, slen := BitVec.ofNat 8 len, responses := ⟨0#8, BitVec.ofNat 32 len⟩ :: s.responses }) ∧
      (¬ allHex s → ∃ k, firstBad s k ∧ exec (.jcomp imm) s = .next (failed s 1#8 (BitVec.ofNat 32 k)))

/-- 44_jump.md R211: on a string of hex digits JAPPLY applies the polynomial it writes, its last 64 digits, to `GEN`; on
any other string it raises PARSE, nothing else is written and `T` is not stepped. -/
def Obligations.JapplyAppliesTheText : Prop :=
  decode (word 0x46 0 0 0 0 0) = .ok .japply ∧
  ∀ s : State, s.errcode = 0#8 →
    (allHex s →
      ∃ jp : Poly, jp.toNat = stringNumber s % 2 ^ 256 ∧
        exec .japply s = .next { s with
          gen := sumOfSteps Config.params.step s.gen jp, acc := sumOfSteps Config.params.step s.gen jp,
          stepPort := presented Config.params.step s.gen ++ s.stepPort, responses := ⟨0#8, 0#32⟩ :: s.responses }) ∧
    (¬ allHex s → ∃ k, firstBad s k ∧ exec .japply s = .next (failed s 1#8 (BitVec.ofNat 32 k)))

/-- 44_jump.md R212, R203: on a string of hex digits JUMP leaves `GEN` and `ACC` equal to `T^e(GEN)` with
`e = (multiplier * base) mod 2^128`, and the text of `x^e mod CHARPOLY` in the buffer, as one command; on any other
string it raises PARSE and nothing else is written. -/
def Obligations.JumpStepsTheGenerator : Prop :=
  ∀ imm : Data, decode (word 0x47 0 0 0 0 imm.toNat) = .ok (.jump imm) ∧
    ∀ s : State, s.errcode = 0#8 →
      (allHex s →
        ∃ (e : Nat) (jp : Poly) (m : Memory) (len : Nat),
          e = imm.toNat * (stringNumber s % 2 ^ 128) % 2 ^ 128 ∧
          toPoly jp = Polynomial.X ^ e % toPoly Config.params.charpoly ∧ len ≤ 32 ∧ holdsText s.sb m jp.toNat len ∧
          exec (.jump imm) s = .next { s with
            gen := Config.params.step^[e] s.gen, acc := Config.params.step^[e] s.gen, sb := m,
            slen := BitVec.ofNat 8 len, stepPort := presented Config.params.step s.gen ++ s.stepPort,
            responses := ⟨0#8, 0#32⟩ :: s.responses }) ∧
      (¬ allHex s → ∃ k, firstBad s k ∧ exec (.jump imm) s = .next (failed s 1#8 (BitVec.ofNat 32 k)))

/-- 44_jump.md R203: under the two contracts, polynomials congruent modulo `CHARPOLY` give the same state, and
`x^N mod CHARPOLY` gives `T^N`. -/
def Obligations.JumpLaw : Prop :=
  ∀ c : XjeParams, c.Contract →
    (∀ (p q : Poly) (s : Gen), toPoly c.charpoly ∣ toPoly p - toPoly q → gApply c.step s p = gApply c.step s q) ∧
    (∀ (p : Poly) (N : Nat) (s : Gen), toPoly p = Polynomial.X ^ N % toPoly c.charpoly →
      gApply c.step s p = c.step^[N] s)

/-- 44_jump.md R204: under the two contracts, the jump polynomial of exponent `A` and then that of exponent `B` leave
`T^(A+B)`, which is one jump of exponent `A + B` whenever that fits 128 bits. -/
def Obligations.JumpsCompose : Prop :=
  ∀ c : XjeParams, c.Contract → ∀ (A B : U128) (s : Gen),
    gApply c.step (gApply c.step s (pPow 2#256 A c.charpoly)) (pPow 2#256 B c.charpoly) =
      c.step^[A.toNat + B.toNat] s ∧
    (A.toNat + B.toNat < 2 ^ 128 →
      gApply c.step s (pPow 2#256 (A + B) c.charpoly) = c.step^[A.toNat + B.toNat] s)

/-- 44_jump.md R213: with exponent 0 a jump is the identity and its text is "1"; with exponent 1 it is one step and its
text is "2"; for any function `T` and any `CHARPOLY` of degree 128, no other contract. -/
def Obligations.JumpByZeroAndByOne : Prop :=
  ∀ (c : XjeParams), pDeg c.charpoly = 128 →
    ∀ (imm : Data) (s : State), s.errcode = 0#8 → allHex s →
      (imm.toNat * (stringNumber s % 2 ^ 128) % 2 ^ 128 = 0 →
        ∃ t, jumpWith c imm s = .next t ∧ t.gen = s.gen ∧ t.acc = s.gen ∧ t.slen = 1#8 ∧ t.sb.read 0 = 0x31#8 ∧
          t.stepPort.length = s.stepPort.length + 256) ∧
      (imm.toNat * (stringNumber s % 2 ^ 128) % 2 ^ 128 = 1 →
        ∃ t, jumpWith c imm s = .next t ∧ t.gen = c.step s.gen ∧ t.acc = c.step s.gen ∧ t.slen = 1#8 ∧
          t.sb.read 0 = 0x32#8 ∧ t.stepPort.length = s.stepPort.length + 256)

/-! ### Pseudo-commands -/

/-- 30_encoding.md R80: PONE and PX load the polynomials "1" and "x", PMOV copies, and SBSTR leaves its text as the
string, for a text that fits the buffer. -/
def Obligations.PseudoCommandsDoWhatTheySay : Prop :=
  ∀ s : State, s.errcode = 0#8 →
    (∀ rd : PReg,
      execAll (Pseudo.pone rd).expand s =
        .next { s with p := s.p.set rd 1#256, responses := ⟨0#8, 0#32⟩ :: s.responses } ∧
      execAll (Pseudo.px rd).expand s =
        .next { s with p := s.p.set rd 2#256, responses := ⟨0#8, 0#32⟩ :: s.responses }) ∧
    (∀ rd ra : PReg, execAll (Pseudo.pmov rd ra).expand s =
      .next { s with p := s.p.set rd s.p[ra], responses := ⟨0#8, 0#32⟩ :: s.responses }) ∧
    ∀ t : Text, t.length ≤ 128 →
      ∃ m : Memory, execAll (Pseudo.sbstr t).expand s = .next { s with
        sb := m, slen := BitVec.ofNat 8 t.length,
        responses := List.replicate (t.length + 1) ⟨0#8, 0#32⟩ ++ s.responses } ∧
        ∀ a, m.read a = t.getD a (s.sb.read a)

/-! ### A choice of the model -/

/-- The model's choice (notes/assumptions/7.md), no rule of the spec: a term of UWL or SBWR that no word decodes to runs
as the well-formed term that has the bits of 30_encoding.md R76 item 5 at zero, in every state. -/
def Obligations.IllFormedTermsRunWithoutTheExtraBits : Prop :=
  ∀ s : State,
    (∀ (r : UReg) (ix : Index) (imm : Data),
      (Instr.uwl r ix (imm &&& 0x0000FFFF#32)).wellFormed = true ∧
      exec (.uwl r ix imm) s = exec (.uwl r ix (imm &&& 0x0000FFFF#32)) s) ∧
    ∀ imm : Data,
      (Instr.sbwr (imm &&& 0xFFFF00FF#32)).wellFormed = true ∧
      exec (.sbwr imm) s = exec (.sbwr (imm &&& 0xFFFF00FF#32)) s
end

