-- ==== Sys2Proof/Laws/Decode.lean ====
section
/-! SUPPORT. Words and their fields (30_encoding.md R71): `pack` and `fields` undo each other, and register numbers
and masks act field by field. -/

namespace Sys2Proof

/-- Bit `i` of a packed word, field by field (30_encoding.md R71). -/
theorem getLsbD_pack (f : Fields) (i : Nat) :
    (pack f).getLsbD i =
      if i < 8 then f.op.getLsbD i else if i < 12 then f.rd.getLsbD (i - 8) else
      if i < 16 then f.ra.getLsbD (i - 12) else if i < 20 then f.rb.getLsbD (i - 16) else
      if i < 24 then f.ix.getLsbD (i - 20) else if i < 32 then f.rsv.getLsbD (i - 24) else f.imm.getLsbD (i - 32) := by
  have h1 := BitVec.getLsbD_append (x := f.imm ++ f.rsv ++ f.ix ++ f.rb ++ f.ra ++ f.rd) (y := f.op) (i := i)
  have h2 := BitVec.getLsbD_append (x := f.imm ++ f.rsv ++ f.ix ++ f.rb ++ f.ra) (y := f.rd) (i := i - 8)
  have h3 := BitVec.getLsbD_append (x := f.imm ++ f.rsv ++ f.ix ++ f.rb) (y := f.ra) (i := i - 12)
  have h4 := BitVec.getLsbD_append (x := f.imm ++ f.rsv ++ f.ix) (y := f.rb) (i := i - 16)
  have h5 := BitVec.getLsbD_append (x := f.imm ++ f.rsv) (y := f.ix) (i := i - 20)
  have h6 := BitVec.getLsbD_append (x := f.imm) (y := f.rsv) (i := i - 24)
  simp only [Nat.sub_sub, Nat.reduceAdd] at h1 h2 h3 h4 h5 h6
  refine h1.trans ?_
  rw [h2, h3, h4, h5, h6]
  split
  · rfl
  have e1 : (i - 8 < 4) = (i < 12) := by apply propext; omega
  have e2 : (i - 12 < 4) = (i < 16) := by apply propext; omega
  have e3 : (i - 16 < 4) = (i < 20) := by apply propext; omega
  have e4 : (i - 20 < 4) = (i < 24) := by apply propext; omega
  have e5 : (i - 24 < 8) = (i < 32) := by apply propext; omega
  simp only [e1]; split
  · rfl
  simp only [e2]; split
  · rfl
  simp only [e3]; split
  · rfl
  simp only [e4]; split
  · rfl
  simp only [e5]

/-- Every field of a packed word is the field packed (30_encoding.md R71). -/
@[simp] theorem fields_pack (f : Fields) : fields (pack f) = f := by
  obtain ⟨op, rd, ra, rb, ix, rsv, imm⟩ := f
  simp only [fields, Fields.mk.injEq]
  refine ⟨?_, ?_, ?_, ?_, ?_, ?_, ?_⟩ <;>
    (apply BitVec.eq_of_getLsbD_eq
     intro i hi
     rw [BitVec.getLsbD_extractLsb', getLsbD_pack]
     simp only [hi, decide_true, Bool.true_and]
     (repeat' split) <;> first | (exfalso; omega) | (congr 1; omega))

/-- A word is the packing of its fields (30_encoding.md R71). -/
@[simp] theorem pack_fields (cw : CmdWord) : pack (fields cw) = cw := by
  apply BitVec.eq_of_getLsbD_eq
  intro i hi
  rw [getLsbD_pack]
  simp only [fields, BitVec.getLsbD_extractLsb']
  (repeat' split) <;>
    (rw [decide_eq_true (by omega), Bool.true_and]; congr 1; omega)

/-- A packed word as a number (30_encoding.md R71). -/
theorem toNat_pack (f : Fields) :
    (pack f).toNat = f.op.toNat + f.rd.toNat * 2 ^ 8 + f.ra.toNat * 2 ^ 12 + f.rb.toNat * 2 ^ 16 +
      f.ix.toNat * 2 ^ 20 + f.rsv.toNat * 2 ^ 24 + f.imm.toNat * 2 ^ 32 := by
  have h1 := f.op.isLt
  have h2 := f.rd.isLt
  have h3 := f.ra.isLt
  have h4 := f.rb.isLt
  have h5 := f.ix.isLt
  have h6 := f.rsv.isLt
  have h7 := f.imm.isLt
  simp only [pack, BitVec.toNat_append]
  rw [← Nat.shiftLeft_add_eq_or_of_lt h6, ← Nat.shiftLeft_add_eq_or_of_lt h5, ← Nat.shiftLeft_add_eq_or_of_lt h4,
    ← Nat.shiftLeft_add_eq_or_of_lt h3, ← Nat.shiftLeft_add_eq_or_of_lt h2, ← Nat.shiftLeft_add_eq_or_of_lt h1]
  simp only [Nat.shiftLeft_eq]
  omega

/-- Masking acts field by field. -/
theorem pack_and (f g : Fields) :
    pack f &&& pack g =
      pack ⟨f.op &&& g.op, f.rd &&& g.rd, f.ra &&& g.ra, f.rb &&& g.rb, f.ix &&& g.ix, f.rsv &&& g.rsv,
        f.imm &&& g.imm⟩ := by
  apply BitVec.eq_of_getLsbD_eq
  intro i hi
  simp only [BitVec.getLsbD_and, getLsbD_pack]
  (repeat' split) <;> rfl

/-- A register number read back from its field (30_encoding.md R76 item 4). -/
@[simp] theorem pReg_reg (r : PReg) : pReg (reg r) = .ok r := by revert r; decide

@[simp] theorem uReg_reg (r : UReg) : uReg (reg r) = .ok r := by revert r; decide

end Sys2Proof
end

