-- ==== Sys2Proof/Laws/Memory.lean ====
section
/-! SUPPORT. The string buffer as a memory (20_memory.md R56, R60): read after write, and the canonical form is kept.
The read laws hold of every list, canonical or not. -/

namespace Sys2Proof.Machine

namespace Memory

@[simp] theorem read_nil (a : Nat) : read [] a = 0#8 := rfl

@[simp] theorem read_cons (k : Nat) (b : Byte) (m : Memory) (a : Nat) :
    read ((k, b) :: m) a = if k = a then b else read m a := rfl

theorem read_filter_same (m : Memory) (a : Nat) : read (m.filter (fun c => c.1 != a)) a = 0#8 := by
  induction m with
  | nil => rfl
  | cons c m ih =>
    obtain ⟨k, b⟩ := c
    by_cases h : k = a <;> simp [h, ih]

theorem read_filter_other (m : Memory) {a b : Nat} (hb : b ≠ a) : read (m.filter (fun c => c.1 != a)) b = read m b := by
  induction m with
  | nil => rfl
  | cons c m ih =>
    obtain ⟨k, x⟩ := c
    by_cases h : k = a
    · subst h; simp [ih, Ne.symm hb]
    · simp [h, ih]

theorem read_insert_same (m : Memory) (a : Nat) (b : Byte) (h : ∀ c ∈ m, c.1 ≠ a) : read (insert a b m) a = b := by
  induction m with
  | nil => simp [insert]
  | cons c m ih =>
    obtain ⟨k, x⟩ := c
    have hk : k ≠ a := h (k, x) List.mem_cons_self
    unfold insert
    split
    · simp
    · simp [hk, ih (fun c hc => h c (List.mem_cons_of_mem _ hc))]

theorem read_insert_other (m : Memory) {a i : Nat} (b : Byte) (hi : i ≠ a) : read (insert a b m) i = read m i := by
  induction m with
  | nil => simp [insert, Ne.symm hi]
  | cons c m ih =>
    obtain ⟨k, x⟩ := c
    unfold insert
    split
    · simp [Ne.symm hi]
    · simp [ih]

/-- A read after a write to the same address gives the byte written (20_memory.md R56). -/
@[simp] theorem read_write_same (m : Memory) (a : Nat) (b : Byte) : read (m.write a b) a = b := by
  unfold write
  split
  · next h => rw [h]; exact read_filter_same m a
  · exact read_insert_same _ _ _ (fun c hc => by simpa using (List.mem_filter.mp hc).2)

/-- A write leaves every other address alone (20_memory.md R56). -/
theorem read_write_other (m : Memory) {a i : Nat} (b : Byte) (hi : i ≠ a) : read (m.write a b) i = read m i := by
  unfold write
  split
  · exact read_filter_other m hi
  · rw [read_insert_other _ _ hi, read_filter_other m hi]

/-- What the buffer reads after a text is written from address `a` on (20_memory.md R60). -/
theorem read_writeText (t : Text) (m : Memory) (a i : Nat) :
    read (writeText a t m) i = if h : a ≤ i ∧ i - a < t.length then t[i - a]'h.2 else read m i := by
  induction t generalizing a m with
  | nil => simp [writeText]
  | cons c t ih =>
    rw [writeText, ih]
    by_cases h : a + 1 ≤ i ∧ i - (a + 1) < t.length
    · have h' : a ≤ i ∧ i - a < (c :: t).length := by simp only [List.length_cons]; omega
      have hi : i - a = (i - (a + 1)) + 1 := by omega
      rw [dif_pos h, dif_pos h']
      simp only [hi, List.getElem_cons_succ]
    · rw [dif_neg h]
      by_cases hia : i = a
      · subst hia; simp
      · have h' : ¬ (a ≤ i ∧ i - a < (c :: t).length) := by simp only [List.length_cons]; omega
        rw [dif_neg h', read_write_other _ _ hia]

/-! ### The canonical form -/

theorem wfFrom_mono {lo lo' : Nat} (h : lo' ≤ lo) {m : Memory} (hm : wfFrom lo m = true) : wfFrom lo' m = true := by
  cases m with
  | nil => rfl
  | cons c m =>
    obtain ⟨k, b⟩ := c
    simp only [wfFrom, Bool.and_eq_true, decide_eq_true_eq] at hm ⊢
    exact ⟨⟨⟨by omega, hm.1.1.2⟩, hm.1.2⟩, hm.2⟩

theorem wfFrom_filter (a : Nat) {lo : Nat} {m : Memory} (hm : wfFrom lo m = true) :
    wfFrom lo (m.filter (fun c => c.1 != a)) = true := by
  induction m generalizing lo with
  | nil => rfl
  | cons c m ih =>
    obtain ⟨k, b⟩ := c
    simp only [wfFrom, Bool.and_eq_true, decide_eq_true_eq] at hm
    rw [List.filter_cons]
    split
    · simp only [wfFrom, Bool.and_eq_true, decide_eq_true_eq]
      exact ⟨hm.1, ih hm.2⟩
    · exact wfFrom_mono (by omega) (ih hm.2)

theorem wfFrom_insert {a lo : Nat} {b : Byte} (hlo : lo ≤ a) (ha : a < sbBytes) (hb : b ≠ 0#8) {m : Memory}
    (hm : wfFrom lo m = true) (hne : ∀ c ∈ m, c.1 ≠ a) : wfFrom lo (insert a b m) = true := by
  induction m generalizing lo with
  | nil => simp [insert, wfFrom, hlo, ha, hb]
  | cons c m ih =>
    obtain ⟨k, x⟩ := c
    simp only [wfFrom, Bool.and_eq_true, decide_eq_true_eq] at hm
    have hk : k ≠ a := hne (k, x) List.mem_cons_self
    unfold insert
    split
    · simp only [wfFrom, Bool.and_eq_true, decide_eq_true_eq]
      exact ⟨⟨⟨hlo, ha⟩, by simpa using hb⟩, ⟨⟨by omega, hm.1.1.2⟩, hm.1.2⟩, hm.2⟩
    · simp only [wfFrom, Bool.and_eq_true, decide_eq_true_eq]
      exact ⟨hm.1, ih (by omega) hm.2 (fun c hc => hne c (List.mem_cons_of_mem _ hc))⟩

/-- Every write to an address of the buffer keeps the canonical form. -/
theorem wf_write {m : Memory} (hm : m.wf = true) {a : Nat} (ha : a < sbBytes) (b : Byte) : (m.write a b).wf = true := by
  unfold write wf
  split
  · exact wfFrom_filter a hm
  · next hb =>
    exact wfFrom_insert (Nat.zero_le _) ha hb (wfFrom_filter a hm)
      (fun c hc => by simpa using (List.mem_filter.mp hc).2)

/-- A text that fits the buffer keeps the canonical form. -/
theorem wf_writeText (t : Text) {m : Memory} (hm : m.wf = true) {a : Nat} (ha : a + t.length ≤ sbBytes) :
    (writeText a t m).wf = true := by
  induction t generalizing a m with
  | nil => exact hm
  | cons c t ih =>
    simp only [List.length_cons] at ha
    exact ih (wf_write hm (by omega) c) (by omega)

/-- An address beyond the buffer is listed by no canonical memory. -/
theorem read_beyond {m : Memory} {lo : Nat} (hm : wfFrom lo m = true) {a : Nat} (ha : sbBytes ≤ a) :
    read m a = 0#8 := by
  induction m generalizing lo with
  | nil => rfl
  | cons c m ih =>
    obtain ⟨k, b⟩ := c
    simp only [wfFrom, Bool.and_eq_true, decide_eq_true_eq] at hm
    have hk : k ≠ a := by omega
    simp [hk, ih hm.2]

theorem read_below {m : Memory} {lo : Nat} (hm : wfFrom lo m = true) {a : Nat} (ha : a < lo) : read m a = 0#8 := by
  induction m generalizing lo with
  | nil => rfl
  | cons c m ih =>
    obtain ⟨k, b⟩ := c
    simp only [wfFrom, Bool.and_eq_true, decide_eq_true_eq] at hm
    have hk : k ≠ a := by omega
    simp [hk, ih hm.2 (by omega)]

/-- Canonical memories that read the same at every address are the same list. -/
theorem ext_wfFrom {m n : Memory} {lo : Nat} (hm : wfFrom lo m = true) (hn : wfFrom lo n = true)
    (h : ∀ a, read m a = read n a) : m = n := by
  induction m generalizing n lo with
  | nil =>
    cases n with
    | nil => rfl
    | cons d n =>
      obtain ⟨k, b⟩ := d
      have h1 := h k
      simp only [wfFrom, Bool.and_eq_true, decide_eq_true_eq, bne_iff_ne] at hn
      simp at h1
      exact absurd h1.symm hn.1.2
  | cons c m ih =>
    obtain ⟨k, b⟩ := c
    simp only [wfFrom, Bool.and_eq_true, decide_eq_true_eq, bne_iff_ne] at hm
    cases n with
    | nil =>
      have h1 := h k
      simp at h1
      exact absurd h1 hm.1.2
    | cons d n =>
      obtain ⟨j, x⟩ := d
      simp only [wfFrom, Bool.and_eq_true, decide_eq_true_eq, bne_iff_ne] at hn
      have hkj : k = j := by
        rcases Nat.lt_trichotomy k j with hlt | heq | hgt
        · have h1 := h k
          have h2 : j ≠ k := by omega
          rw [read_cons, read_cons, if_pos rfl, if_neg h2, read_below hn.2 (by omega)] at h1
          exact absurd h1 hm.1.2
        · exact heq
        · have h1 := h j
          have h2 : k ≠ j := by omega
          rw [read_cons, read_cons, if_pos rfl, if_neg h2, read_below hm.2 (by omega)] at h1
          exact absurd h1.symm hn.1.2
      subst hkj
      have hbx : b = x := by simpa using h k
      subst hbx
      congr 1
      refine ih hm.2 hn.2 (fun a => ?_)
      by_cases ha : k = a
      · subst ha; rw [read_below hm.2 (by omega), read_below hn.2 (by omega)]
      · simpa [ha] using h a

end Memory

/-! ### The string -/

/-- `STR` has length `SLEN` (20_memory.md R60). -/
@[simp] theorem str_length (s : State) : s.str.length = s.slen.toNat := by simp [State.str]

theorem str_getElem (s : State) (k : Nat) (h : k < s.str.length) : s.str[k] = s.sb.read k := by simp [State.str]

/-- After a new string that fits `SLEN`, `STR` is that string (20_memory.md R60). -/
theorem str_putText (s : State) (t : Text) (ht : t.length < 256) : (s.putText t).str = t := by
  have hlen : (s.putText t).str.length = t.length := by
    rw [str_length]
    show (BitVec.ofNat 8 t.length).toNat = t.length
    rw [BitVec.toNat_ofNat]; exact Nat.mod_eq_of_lt ht
  refine List.ext_getElem hlen (fun k h1 h2 => ?_)
  rw [str_getElem]
  show Memory.read (Memory.writeText 0 t s.sb) k = t[k]
  rw [Memory.read_writeText, dif_pos ⟨Nat.zero_le _, by simpa using h2⟩]
  rfl

/-- A new string of at most 128 characters keeps the canonical form. -/
theorem putText_wf (s : State) (t : Text) (hs : s.sb.wf = true) (ht : t.length ≤ sbBytes) :
    (s.putText t).sb.wf = true :=
  Memory.wf_writeText t hs (by omega)

theorem reset_sb_wf : State.reset.sb.wf = true := rfl

end Sys2Proof.Machine
end

