-- ==== Sys2Proof/Laws/State.lean ====
section
/-! SUPPORT. One lemma per field of State and named update (Machine/Ops.lean, Machine/Flags.lean), and the small lemmas
of the register accessors. -/

namespace Sys2Proof.Machine

variable (s : State)

/-! ### `State.writeP` -/

@[simp] theorem writeP_p (i : PReg) (v : Poly) : (s.writeP i v).p = s.p.set i v := rfl
@[simp] theorem writeP_u (i : PReg) (v : Poly) : (s.writeP i v).u = s.u := rfl
@[simp] theorem writeP_gen (i : PReg) (v : Poly) : (s.writeP i v).gen = s.gen := rfl
@[simp] theorem writeP_acc (i : PReg) (v : Poly) : (s.writeP i v).acc = s.acc := rfl
@[simp] theorem writeP_sb (i : PReg) (v : Poly) : (s.writeP i v).sb = s.sb := rfl
@[simp] theorem writeP_slen (i : PReg) (v : Poly) : (s.writeP i v).slen = s.slen := rfl
@[simp] theorem writeP_errcode (i : PReg) (v : Poly) : (s.writeP i v).errcode = s.errcode := rfl
@[simp] theorem writeP_errinfo (i : PReg) (v : Poly) : (s.writeP i v).errinfo = s.errinfo := rfl
@[simp] theorem writeP_input (i : PReg) (v : Poly) : (s.writeP i v).input = s.input := rfl
@[simp] theorem writeP_responses (i : PReg) (v : Poly) : (s.writeP i v).responses = s.responses := rfl
@[simp] theorem writeP_stepPort (i : PReg) (v : Poly) : (s.writeP i v).stepPort = s.stepPort := rfl

/-! ### `State.writeU` -/

@[simp] theorem writeU_p (i : UReg) (v : U128) : (s.writeU i v).p = s.p := rfl
@[simp] theorem writeU_u (i : UReg) (v : U128) : (s.writeU i v).u = s.u.set i v := rfl
@[simp] theorem writeU_gen (i : UReg) (v : U128) : (s.writeU i v).gen = s.gen := rfl
@[simp] theorem writeU_acc (i : UReg) (v : U128) : (s.writeU i v).acc = s.acc := rfl
@[simp] theorem writeU_sb (i : UReg) (v : U128) : (s.writeU i v).sb = s.sb := rfl
@[simp] theorem writeU_slen (i : UReg) (v : U128) : (s.writeU i v).slen = s.slen := rfl
@[simp] theorem writeU_errcode (i : UReg) (v : U128) : (s.writeU i v).errcode = s.errcode := rfl
@[simp] theorem writeU_errinfo (i : UReg) (v : U128) : (s.writeU i v).errinfo = s.errinfo := rfl
@[simp] theorem writeU_input (i : UReg) (v : U128) : (s.writeU i v).input = s.input := rfl
@[simp] theorem writeU_responses (i : UReg) (v : U128) : (s.writeU i v).responses = s.responses := rfl
@[simp] theorem writeU_stepPort (i : UReg) (v : U128) : (s.writeU i v).stepPort = s.stepPort := rfl

/-! ### `State.writeGen` -/

@[simp] theorem writeGen_p (g : Gen) : (s.writeGen g).p = s.p := rfl
@[simp] theorem writeGen_u (g : Gen) : (s.writeGen g).u = s.u := rfl
@[simp] theorem writeGen_gen (g : Gen) : (s.writeGen g).gen = g := rfl
@[simp] theorem writeGen_acc (g : Gen) : (s.writeGen g).acc = s.acc := rfl
@[simp] theorem writeGen_sb (g : Gen) : (s.writeGen g).sb = s.sb := rfl
@[simp] theorem writeGen_slen (g : Gen) : (s.writeGen g).slen = s.slen := rfl
@[simp] theorem writeGen_errcode (g : Gen) : (s.writeGen g).errcode = s.errcode := rfl
@[simp] theorem writeGen_errinfo (g : Gen) : (s.writeGen g).errinfo = s.errinfo := rfl
@[simp] theorem writeGen_input (g : Gen) : (s.writeGen g).input = s.input := rfl
@[simp] theorem writeGen_responses (g : Gen) : (s.writeGen g).responses = s.responses := rfl
@[simp] theorem writeGen_stepPort (g : Gen) : (s.writeGen g).stepPort = s.stepPort := rfl

/-! ### `State.writeAcc` -/

@[simp] theorem writeAcc_p (a : Gen) : (s.writeAcc a).p = s.p := rfl
@[simp] theorem writeAcc_u (a : Gen) : (s.writeAcc a).u = s.u := rfl
@[simp] theorem writeAcc_gen (a : Gen) : (s.writeAcc a).gen = s.gen := rfl
@[simp] theorem writeAcc_acc (a : Gen) : (s.writeAcc a).acc = a := rfl
@[simp] theorem writeAcc_sb (a : Gen) : (s.writeAcc a).sb = s.sb := rfl
@[simp] theorem writeAcc_slen (a : Gen) : (s.writeAcc a).slen = s.slen := rfl
@[simp] theorem writeAcc_errcode (a : Gen) : (s.writeAcc a).errcode = s.errcode := rfl
@[simp] theorem writeAcc_errinfo (a : Gen) : (s.writeAcc a).errinfo = s.errinfo := rfl
@[simp] theorem writeAcc_input (a : Gen) : (s.writeAcc a).input = s.input := rfl
@[simp] theorem writeAcc_responses (a : Gen) : (s.writeAcc a).responses = s.responses := rfl
@[simp] theorem writeAcc_stepPort (a : Gen) : (s.writeAcc a).stepPort = s.stepPort := rfl

/-! ### `State.writeByte` -/

@[simp] theorem writeByte_p (a : Nat) (b : Byte) : (s.writeByte a b).p = s.p := rfl
@[simp] theorem writeByte_u (a : Nat) (b : Byte) : (s.writeByte a b).u = s.u := rfl
@[simp] theorem writeByte_gen (a : Nat) (b : Byte) : (s.writeByte a b).gen = s.gen := rfl
@[simp] theorem writeByte_acc (a : Nat) (b : Byte) : (s.writeByte a b).acc = s.acc := rfl
@[simp] theorem writeByte_sb (a : Nat) (b : Byte) : (s.writeByte a b).sb = s.sb.write a b := rfl
@[simp] theorem writeByte_slen (a : Nat) (b : Byte) : (s.writeByte a b).slen = s.slen := rfl
@[simp] theorem writeByte_errcode (a : Nat) (b : Byte) : (s.writeByte a b).errcode = s.errcode := rfl
@[simp] theorem writeByte_errinfo (a : Nat) (b : Byte) : (s.writeByte a b).errinfo = s.errinfo := rfl
@[simp] theorem writeByte_input (a : Nat) (b : Byte) : (s.writeByte a b).input = s.input := rfl
@[simp] theorem writeByte_responses (a : Nat) (b : Byte) : (s.writeByte a b).responses = s.responses := rfl
@[simp] theorem writeByte_stepPort (a : Nat) (b : Byte) : (s.writeByte a b).stepPort = s.stepPort := rfl

/-! ### `State.writeSlen` -/

@[simp] theorem writeSlen_p (n : BitVec 8) : (s.writeSlen n).p = s.p := rfl
@[simp] theorem writeSlen_u (n : BitVec 8) : (s.writeSlen n).u = s.u := rfl
@[simp] theorem writeSlen_gen (n : BitVec 8) : (s.writeSlen n).gen = s.gen := rfl
@[simp] theorem writeSlen_acc (n : BitVec 8) : (s.writeSlen n).acc = s.acc := rfl
@[simp] theorem writeSlen_sb (n : BitVec 8) : (s.writeSlen n).sb = s.sb := rfl
@[simp] theorem writeSlen_slen (n : BitVec 8) : (s.writeSlen n).slen = n := rfl
@[simp] theorem writeSlen_errcode (n : BitVec 8) : (s.writeSlen n).errcode = s.errcode := rfl
@[simp] theorem writeSlen_errinfo (n : BitVec 8) : (s.writeSlen n).errinfo = s.errinfo := rfl
@[simp] theorem writeSlen_input (n : BitVec 8) : (s.writeSlen n).input = s.input := rfl
@[simp] theorem writeSlen_responses (n : BitVec 8) : (s.writeSlen n).responses = s.responses := rfl
@[simp] theorem writeSlen_stepPort (n : BitVec 8) : (s.writeSlen n).stepPort = s.stepPort := rfl

/-! ### `State.putText` -/

@[simp] theorem putText_p (t : Text) : (s.putText t).p = s.p := rfl
@[simp] theorem putText_u (t : Text) : (s.putText t).u = s.u := rfl
@[simp] theorem putText_gen (t : Text) : (s.putText t).gen = s.gen := rfl
@[simp] theorem putText_acc (t : Text) : (s.putText t).acc = s.acc := rfl
@[simp] theorem putText_sb (t : Text) : (s.putText t).sb = Memory.writeText 0 t s.sb := rfl
@[simp] theorem putText_slen (t : Text) : (s.putText t).slen = BitVec.ofNat 8 t.length := rfl
@[simp] theorem putText_errcode (t : Text) : (s.putText t).errcode = s.errcode := rfl
@[simp] theorem putText_errinfo (t : Text) : (s.putText t).errinfo = s.errinfo := rfl
@[simp] theorem putText_input (t : Text) : (s.putText t).input = s.input := rfl
@[simp] theorem putText_responses (t : Text) : (s.putText t).responses = s.responses := rfl
@[simp] theorem putText_stepPort (t : Text) : (s.putText t).stepPort = s.stepPort := rfl

/-! ### `State.latch` -/

@[simp] theorem latch_p (c : BitVec 8) (x : Data) : (s.latch c x).p = s.p := rfl
@[simp] theorem latch_u (c : BitVec 8) (x : Data) : (s.latch c x).u = s.u := rfl
@[simp] theorem latch_gen (c : BitVec 8) (x : Data) : (s.latch c x).gen = s.gen := rfl
@[simp] theorem latch_acc (c : BitVec 8) (x : Data) : (s.latch c x).acc = s.acc := rfl
@[simp] theorem latch_sb (c : BitVec 8) (x : Data) : (s.latch c x).sb = s.sb := rfl
@[simp] theorem latch_slen (c : BitVec 8) (x : Data) : (s.latch c x).slen = s.slen := rfl
@[simp] theorem latch_errcode (c : BitVec 8) (x : Data) : (s.latch c x).errcode = c := rfl
@[simp] theorem latch_errinfo (c : BitVec 8) (x : Data) : (s.latch c x).errinfo = x := rfl
@[simp] theorem latch_input (c : BitVec 8) (x : Data) : (s.latch c x).input = s.input := rfl
@[simp] theorem latch_responses (c : BitVec 8) (x : Data) : (s.latch c x).responses = s.responses := rfl
@[simp] theorem latch_stepPort (c : BitVec 8) (x : Data) : (s.latch c x).stepPort = s.stepPort := rfl

/-! ### `State.answer` -/

@[simp] theorem answer_p (c : BitVec 8) (d : Data) : (s.answer c d).p = s.p := rfl
@[simp] theorem answer_u (c : BitVec 8) (d : Data) : (s.answer c d).u = s.u := rfl
@[simp] theorem answer_gen (c : BitVec 8) (d : Data) : (s.answer c d).gen = s.gen := rfl
@[simp] theorem answer_acc (c : BitVec 8) (d : Data) : (s.answer c d).acc = s.acc := rfl
@[simp] theorem answer_sb (c : BitVec 8) (d : Data) : (s.answer c d).sb = s.sb := rfl
@[simp] theorem answer_slen (c : BitVec 8) (d : Data) : (s.answer c d).slen = s.slen := rfl
@[simp] theorem answer_errcode (c : BitVec 8) (d : Data) : (s.answer c d).errcode = s.errcode := rfl
@[simp] theorem answer_errinfo (c : BitVec 8) (d : Data) : (s.answer c d).errinfo = s.errinfo := rfl
@[simp] theorem answer_input (c : BitVec 8) (d : Data) : (s.answer c d).input = s.input := rfl
@[simp] theorem answer_responses (c : BitVec 8) (d : Data) : (s.answer c d).responses = ⟨c, d⟩ :: s.responses := rfl
@[simp] theorem answer_stepPort (c : BitVec 8) (d : Data) : (s.answer c d).stepPort = s.stepPort := rfl

/-! ### `State.present` -/

@[simp] theorem present_p (l : List Gen) : (s.present l).p = s.p := rfl
@[simp] theorem present_u (l : List Gen) : (s.present l).u = s.u := rfl
@[simp] theorem present_gen (l : List Gen) : (s.present l).gen = s.gen := rfl
@[simp] theorem present_acc (l : List Gen) : (s.present l).acc = s.acc := rfl
@[simp] theorem present_sb (l : List Gen) : (s.present l).sb = s.sb := rfl
@[simp] theorem present_slen (l : List Gen) : (s.present l).slen = s.slen := rfl
@[simp] theorem present_errcode (l : List Gen) : (s.present l).errcode = s.errcode := rfl
@[simp] theorem present_errinfo (l : List Gen) : (s.present l).errinfo = s.errinfo := rfl
@[simp] theorem present_input (l : List Gen) : (s.present l).input = s.input := rfl
@[simp] theorem present_responses (l : List Gen) : (s.present l).responses = s.responses := rfl
@[simp] theorem present_stepPort (l : List Gen) : (s.present l).stepPort = l ++ s.stepPort := rfl

/-! ### `State.withInput` -/

@[simp] theorem withInput_p (l : List HostInput) : (s.withInput l).p = s.p := rfl
@[simp] theorem withInput_u (l : List HostInput) : (s.withInput l).u = s.u := rfl
@[simp] theorem withInput_gen (l : List HostInput) : (s.withInput l).gen = s.gen := rfl
@[simp] theorem withInput_acc (l : List HostInput) : (s.withInput l).acc = s.acc := rfl
@[simp] theorem withInput_sb (l : List HostInput) : (s.withInput l).sb = s.sb := rfl
@[simp] theorem withInput_slen (l : List HostInput) : (s.withInput l).slen = s.slen := rfl
@[simp] theorem withInput_errcode (l : List HostInput) : (s.withInput l).errcode = s.errcode := rfl
@[simp] theorem withInput_errinfo (l : List HostInput) : (s.withInput l).errinfo = s.errinfo := rfl
@[simp] theorem withInput_input (l : List HostInput) : (s.withInput l).input = l := rfl
@[simp] theorem withInput_responses (l : List HostInput) : (s.withInput l).responses = s.responses := rfl
@[simp] theorem withInput_stepPort (l : List HostInput) : (s.withInput l).stepPort = s.stepPort := rfl

/-! ### `State.hostReset` -/

@[simp] theorem hostReset_p : (s.hostReset).p = State.reset.p := rfl
@[simp] theorem hostReset_u : (s.hostReset).u = State.reset.u := rfl
@[simp] theorem hostReset_gen : (s.hostReset).gen = State.reset.gen := rfl
@[simp] theorem hostReset_acc : (s.hostReset).acc = State.reset.acc := rfl
@[simp] theorem hostReset_sb : (s.hostReset).sb = State.reset.sb := rfl
@[simp] theorem hostReset_slen : (s.hostReset).slen = State.reset.slen := rfl
@[simp] theorem hostReset_errcode : (s.hostReset).errcode = State.reset.errcode := rfl
@[simp] theorem hostReset_errinfo : (s.hostReset).errinfo = State.reset.errinfo := rfl
@[simp] theorem hostReset_input : (s.hostReset).input = s.input := rfl
@[simp] theorem hostReset_responses : (s.hostReset).responses = s.responses := rfl
@[simp] theorem hostReset_stepPort : (s.hostReset).stepPort = s.stepPort := rfl

/-! ### Register reads after writes -/

@[simp] theorem readP_writeP_same (i : PReg) (v : Poly) : (s.writeP i v).readP i = v := by simp [State.readP]

theorem readP_writeP_other {i j : PReg} (h : j ≠ i) (v : Poly) : (s.writeP i v).readP j = s.readP j := by
  have hij : i.val ≠ j.val := fun e => h (Fin.ext e.symm)
  simp [State.readP, hij]

@[simp] theorem readU_writeU_same (i : UReg) (v : U128) : (s.writeU i v).readU i = v := by simp [State.readU]

theorem readU_writeU_other {i j : UReg} (h : j ≠ i) (v : U128) : (s.writeU i v).readU j = s.readU j := by
  have hij : i.val ≠ j.val := fun e => h (Fin.ext e.symm)
  simp [State.readU, hij]

/-! ### The lock -/

/-- XJE is locked exactly when `ERRCODE` is not 0 (10_state.md R28). -/
theorem locked_iff : s.locked = true ↔ s.errcode ≠ 0#8 := by simp [State.locked]

theorem unlocked_iff : s.locked = false ↔ s.errcode = 0#8 := by simp [State.locked]

/-- `STATUS[31:8]` reads as zero in every state (10_state.md R28). -/
theorem status_reserved_zero : s.status.extractLsb' 8 24 = 0#24 := by
  ext i hi
  simp [State.status]

end Sys2Proof.Machine
end

