-- ==== Sys2Proof/Laws/Ops.lean ====
section
/-! SUPPORT. How a command ends: each shared ending said once (00_scope.md R10; 60_exceptions.md R245, R248). -/

namespace Sys2Proof.Machine

/-- `respond` always completes, with status 0 (30_encoding.md R74). -/
theorem respond_next (d : Data) (s : State) : respond d s = .next (s.answer okStatus d) := rfl

/-- Error entry: what is written and that nothing else is (60_exceptions.md R248). -/
theorem raise_next (e : Err) (info : Data) (s : State) :
    raise e info s =
      .next { s with errcode := e.code, errinfo := info, responses := ⟨e.code, 0#32⟩ :: s.responses } := rfl

/-- The lock test when XJE is unlocked. -/
theorem whenUnlocked_unlocked {s : State} (h : s.errcode = 0#8) (k : Result) : whenUnlocked s k = k := by
  simp [whenUnlocked, State.locked, h]

/-- The lock test when XJE is locked: `(5, 0)` and no state change (60_exceptions.md R245). -/
theorem whenUnlocked_locked {s : State} (h : s.errcode ≠ 0#8) (k : Result) :
    whenUnlocked s k = .next { s with responses := ⟨5#8, 0#32⟩ :: s.responses } := by
  simp [whenUnlocked, State.locked, h, State.answer, lockedStatus]

/-- Everything the lock test can do. -/
theorem whenUnlocked_cases {s t : State} {k : Result} (h : whenUnlocked s k = .next t) :
    (s.errcode ≠ 0#8 ∧ t = s.answer lockedStatus 0#32) ∨ (s.errcode = 0#8 ∧ k = .next t) := by
  by_cases hl : s.errcode = 0#8
  · exact .inr ⟨hl, by rwa [whenUnlocked_unlocked hl] at h⟩
  · rw [whenUnlocked_locked hl] at h
    exact .inl ⟨hl, by injection h with h; exact h.symm⟩

/-- Everything the index check can do (60_exceptions.md R243). -/
theorem checkIndex_cases {max : Nat} {ix : Index} {s t : State} {k : Result} (h : checkIndex max ix s k = .next t) :
    (max < ix.toNat ∧ t = (s.latch Err.range.code (ix.setWidth 32)).answer Err.range.code 0#32) ∨
      (ix.toNat ≤ max ∧ k = .next t) := by
  unfold checkIndex at h
  split at h
  · next hi => injection h with h; exact .inl ⟨hi, h.symm⟩
  · next hi => exact .inr ⟨by omega, h⟩

/-- An index that names a limb or word goes on to the command's own effect (60_exceptions.md R243). -/
theorem checkIndex_ok {max : Nat} {ix : Index} (h : ix.toNat ≤ max) (s : State) (k : Result) :
    checkIndex max ix s k = k := by simp [checkIndex, h]

/-- An index that names nothing raises RANGE with its value (60_exceptions.md R243). -/
theorem checkIndex_out {max : Nat} {ix : Index} (h : max < ix.toNat) (s : State) (k : Result) :
    checkIndex max ix s k =
      .next { s with errcode := 3#8, errinfo := BitVec.ofNat 32 ix.toNat, responses := ⟨3#8, 0#32⟩ :: s.responses } := by
  simp only [checkIndex, gt_iff_lt, h, if_true, raise_next, Err.code]
  rw [← BitVec.ofNat_toNat]

/-- An error code is latched, so it is one of 1 to 4 (60_exceptions.md R240). -/
theorem err_code_ne_zero (e : Err) : e.code ≠ 0#8 := by cases e <;> decide

theorem err_code_le (e : Err) : e.code.toNat ≤ 4 := by cases e <;> decide

/-! ### Parsing (43_codec.md R171) -/

/-- The position of a parse error lies in the string, and its character is no hex digit, the first such. -/
theorem parseHexFrom_error {w : Nat} {t : Text} {k : Nat} {v : BitVec w} {pos : Nat}
    (h : parseHexFrom w k v t = .error pos) : k ≤ pos ∧ pos < k + t.length := by
  induction t generalizing k v with
  | nil => simp [parseHexFrom] at h
  | cons c t ih =>
    unfold parseHexFrom at h
    split at h
    · injection h with h; simp only [List.length_cons]; omega
    · have := ih h; simp only [List.length_cons]; omega

/-- Everything reading the string can do (60_exceptions.md R241). -/
theorem withParsed_cases {w : Nat} {s t : State} {k : BitVec w → Result} (h : withParsed w s k = .next t) :
    (∃ pos, parseHex w s.str = .error pos ∧ pos < s.slen.toNat ∧
      t = (s.latch Err.parse.code (BitVec.ofNat 32 pos)).answer Err.parse.code 0#32) ∨
      (∃ v, parseHex w s.str = .ok v ∧ k v = .next t) := by
  unfold withParsed at h
  split at h
  · next pos hp =>
    injection h with h
    have := (parseHexFrom_error hp).2
    exact .inl ⟨pos, hp, by simpa using this, h.symm⟩
  · next v hp => exact .inr ⟨v, hp, h⟩

end Sys2Proof.Machine
end

