-- ==== Sys2Proof/Laws/Exec.lean ====
section
/-! SUPPORT. What a command can do, said once for all 37: it is turned away, it fails, or it takes effect; and what it
leaves alone when it takes effect (30_encoding.md R81; 60_exceptions.md R248; 10_state.md R20). -/

namespace Sys2Proof.Machine

/-- The `ERRINFO` that goes with an error (10_state.md R29). -/
structure FitsInfo (s : State) (e : Err) (info : Data) : Prop where
  notIllegal : e ≠ .illegal
  parse : e = .parse → info.toNat < s.slen.toNat
  range : e = .range → 4 ≤ info.toNat
  redzero : e = .redzero → info = 0#32

/-- What a command that takes effect leaves alone, `u` being the state before its response. -/
structure Effect (i : Instr) (s u : State) : Prop where
  keepsP : ∀ r : PReg, destP i ≠ some r → u.p[r] = s.p[r]
  keepsU : ∀ r : UReg, destU i ≠ some r → u.u[r] = s.u[r]
  keepsGen : writesGen i = false → u.gen = s.gen
  keepsAcc : writesAcc i = false → u.acc = s.acc
  keepsSb : writesSb i = false → u.sb = s.sb
  keepsSlen : writesSlen i = false → u.slen = s.slen
  keepsLatch : i ≠ .errclr → u.errcode = s.errcode ∧ u.errinfo = s.errinfo
  clearsLatch : i = .errclr → u.errcode = 0#8 ∧ u.errinfo = 0#32
  input : u.input = s.input
  responses : u.responses = s.responses
  port : ∃ l, u.stepPort = l ++ s.stepPort ∧ l.length = stepsOfT i
  sbWf : s.sb.wf = true → u.sb.wf = true
  slenOk : s.slen.toNat ≤ 128 → u.slen.toNat ≤ 128

/-- The three ways a command on `s` can end in `t`. -/
def Ends (i : Instr) (s t : State) : Prop :=
  (s.errcode ≠ 0#8 ∧ i.isSystem = false ∧ t = s.answer lockedStatus 0#32) ∨
  (s.errcode = 0#8 ∧ ∃ e info, t = (s.latch e.code info).answer e.code 0#32 ∧ FitsInfo s e info) ∨
  ((s.errcode = 0#8 ∨ i.isSystem = true) ∧ ∃ u d, t = u.answer okStatus d ∧ Effect i s u)

/-! ### Effects, by what is written -/

theorem Effect.none {i : Instr} {s : State} (he : i ≠ .errclr) (h : stepsOfT i = 0) : Effect i s s :=
  ⟨fun _ _ => rfl, fun _ _ => rfl, fun _ => rfl, fun _ => rfl, fun _ => rfl, fun _ => rfl, fun _ => ⟨rfl, rfl⟩,
    fun h => absurd h he, rfl, rfl, ⟨[], rfl, h.symm⟩, id, id⟩

theorem Effect.writeP {i : Instr} {s : State} {rd : PReg} (v : Poly) (hd : destP i = some rd) (he : i ≠ .errclr)
    (h : stepsOfT i = 0) : Effect i s (s.writeP rd v) :=
  { Effect.none (s := s) he h with
    keepsP := fun r hr => by
      have hne : r ≠ rd := fun e => hr (by rw [hd, e])
      exact readP_writeP_other s hne v }

theorem Effect.writeU {i : Instr} {s : State} {rd : UReg} (v : U128) (hd : destU i = some rd) (he : i ≠ .errclr)
    (h : stepsOfT i = 0) : Effect i s (s.writeU rd v) :=
  { Effect.none (s := s) he h with
    keepsU := fun r hr => by
      have hne : r ≠ rd := fun e => hr (by rw [hd, e])
      exact readU_writeU_other s hne v }

theorem Effect.writeGen {i : Instr} {s : State} (g : Gen) (l : List Gen) (hg : writesGen i = true) (he : i ≠ .errclr)
    (h : l.length = stepsOfT i) : Effect i s ((s.writeGen g).present l) :=
  ⟨fun _ _ => rfl, fun _ _ => rfl, fun hc => by simp [hg] at hc, fun _ => rfl, fun _ => rfl, fun _ => rfl,
    fun _ => ⟨rfl, rfl⟩, fun h => absurd h he, rfl, rfl, ⟨l, rfl, h⟩, id, id⟩

theorem Effect.writeByte {i : Instr} {s : State} {a : Nat} (b : Byte) (ha : a < sbBytes) (hw : writesSb i = true)
    (he : i ≠ .errclr) (h : stepsOfT i = 0) : Effect i s (s.writeByte a b) :=
  { Effect.none (s := s) he h with
    keepsSb := fun hc => by simp [hw] at hc
    sbWf := fun hs => Memory.wf_write hs ha b }

theorem Effect.writeSlen {i : Instr} {s : State} {n : BitVec 8} (hn : n.toNat ≤ 128) (hw : writesSlen i = true)
    (he : i ≠ .errclr) (h : stepsOfT i = 0) : Effect i s (s.writeSlen n) :=
  { Effect.none (s := s) he h with
    keepsSlen := fun hc => by simp [hw] at hc
    slenOk := fun _ => hn }

theorem Effect.putText {i : Instr} {s : State} {t : Text} (ht : t.length ≤ 128) (hw : writesSb i = true)
    (hl : writesSlen i = true) (he : i ≠ .errclr) (h : stepsOfT i = 0) : Effect i s (s.putText t) :=
  { Effect.none (s := s) he h with
    keepsSb := fun hc => by simp [hw] at hc
    keepsSlen := fun hc => by simp [hl] at hc
    sbWf := fun hs => putText_wf s t hs ht
    slenOk := fun _ => by
      show (BitVec.ofNat 8 t.length).toNat ≤ 128
      rw [BitVec.toNat_ofNat]; omega }

/-- The applicator presents one state on the step port for each position (44_jump.md R202). -/
theorem applyRun_port_length (step : Gen → Gen) (gen : Gen) (poly : Poly) :
    (applyRun step gen poly).port.length = 256 := by
  have h : ∀ (l : List Nat) (a : Applicator), (l.foldl (applyStep step poly) a).port.length = a.port.length + l.length := by
    intro l
    induction l with
    | nil => intro a; rfl
    | cons i l ih => intro a; rw [List.foldl_cons, ih]; simp only [applyStep, List.length_cons]; omega
  rw [applyRun, h, List.length_range, List.length_nil]

/-- An application on top of an effect that steps nothing. -/
theorem Effect.applyPoly {i j : Instr} {s u : State} (step : Gen → Gen) (poly : Poly) (hu : Effect j s u)
    (hp : destP j = destP i) (hU : destU j = destU i) (hb : writesSb j = writesSb i) (hl : writesSlen j = writesSlen i)
    (hj : j ≠ .errclr) (he : i ≠ .errclr) (hg : writesGen i = true) (ha : writesAcc i = true) (hz : stepsOfT j = 0)
    (h : stepsOfT i = 256) : Effect i s (u.applyPoly step poly) where
  keepsP r hr := hu.keepsP r (by rw [hp]; exact hr)
  keepsU r hr := hu.keepsU r (by rw [hU]; exact hr)
  keepsGen hc := by simp [hg] at hc
  keepsAcc hc := by simp [ha] at hc
  keepsSb hc := hu.keepsSb (by rw [hb]; exact hc)
  keepsSlen hc := hu.keepsSlen (by rw [hl]; exact hc)
  keepsLatch _ := hu.keepsLatch hj
  clearsLatch hc := absurd hc he
  input := hu.input
  responses := hu.responses
  port := by
    obtain ⟨l, hl, hn⟩ := hu.port
    refine ⟨(applyRun step u.gen poly).port ++ l, ?_, ?_⟩
    · show (applyRun step u.gen poly).port ++ u.stepPort = _
      rw [hl, List.append_assoc]
    · rw [List.length_append, hn, hz, applyRun_port_length, h]
  sbWf := hu.sbWf
  slenOk := hu.slenOk

/-- The canonical text of a 128-bit value has at most 32 characters, of a 256-bit value at most 64 (43_codec.md R172). -/
theorem toHex_length_le {w : Nat} (v : BitVec w) (hw : 0 < w) : (toHex v).length ≤ (w + 3) / 4 := by
  simp only [toHex, List.length_map, List.length_range, hexLength]
  have h : v.toNat.log2 < w := by
    rcases Nat.eq_zero_or_pos v.toNat with h0 | h0
    · rw [h0]; simpa using hw
    · exact (Nat.log2_lt (by omega)).mpr v.isLt
  omega

/-! ### Endings -/

theorem Ends.ok {i : Instr} {s t u : State} {d : Data} (h0 : s.errcode = 0#8 ∨ i.isSystem = true)
    (h : respond d u = .next t) (he : Effect i s u) : Ends i s t := by
  injection h with h
  exact .inr (.inr ⟨h0, u, d, h.symm, he⟩)

theorem Ends.fail {i : Instr} {s t : State} {e : Err} {info : Data} (h0 : s.errcode = 0#8)
    (h : raise e info s = .next t) (hf : FitsInfo s e info) : Ends i s t := by
  injection h with h
  exact .inr (.inl ⟨h0, e, info, h.symm, hf⟩)

/-- The lock test in front of a command that is no system command. -/
theorem Ends.unlocked {i : Instr} {s t : State} {k : Result} (hi : i.isSystem = false) (h : whenUnlocked s k = .next t)
    (hk : s.errcode = 0#8 → k = .next t → Ends i s t) : Ends i s t := by
  rcases whenUnlocked_cases h with ⟨hl, ht⟩ | ⟨h0, h'⟩
  · exact .inl ⟨hl, hi, ht⟩
  · exact hk h0 h'

theorem Ends.indexed {i : Instr} {s t : State} {max : Nat} {ix : Index} {k : Result} (h0 : s.errcode = 0#8)
    (hmax : 3 ≤ max) (h : checkIndex max ix s k = .next t) (hk : k = .next t → Ends i s t) : Ends i s t := by
  rcases checkIndex_cases h with ⟨hi, ht⟩ | ⟨_, h'⟩
  · refine .inr (.inl ⟨h0, .range, _, ht, ⟨by decide, nofun, fun _ => ?_, nofun⟩⟩)
    rw [BitVec.toNat_setWidth]
    have := ix.isLt
    omega
  · exact hk h'

theorem Ends.parsed {i : Instr} {s t : State} {w : Nat} {k : BitVec w → Result} (h0 : s.errcode = 0#8)
    (h : withParsed w s k = .next t) (hk : ∀ v, k v = .next t → Ends i s t) : Ends i s t := by
  rcases withParsed_cases h with ⟨pos, _, hp, ht⟩ | ⟨v, _, h'⟩
  · refine .inr (.inl ⟨h0, .parse, _, ht, ⟨by decide, fun _ => ?_, nofun, nofun⟩⟩)
    rw [BitVec.toNat_ofNat]
    have := s.slen.isLt
    omega
  · exact hk v h'

/-- Everything a command can do. -/
theorem exec_ends {i : Instr} {s t : State} (h : exec i s = .next t) : Ends i s t := by
  cases i with
  | nop => exact .ok (.inr rfl) h (.none (by decide) rfl)
  | statrd => exact .ok (.inr rfl) h (.none (by decide) rfl)
  | inford => exact .ok (.inr rfl) h (.none (by decide) rfl)
  | errclr =>
    exact .ok (.inr rfl) h ⟨fun _ _ => rfl, fun _ _ => rfl, fun _ => rfl, fun _ => rfl, fun _ => rfl, fun _ => rfl,
      fun h => absurd rfl h, fun _ => ⟨rfl, rfl⟩, rfl, rfl, ⟨[], rfl, rfl⟩, id, id⟩
  | pclr rd => exact .unlocked rfl h fun h0 h => .ok (.inl h0) h (.writeP _ rfl (by simp) rfl)
  | pseti rd imm => exact .unlocked rfl h fun h0 h => .ok (.inl h0) h (.writeP _ rfl (by simp) rfl)
  | pldc rd => exact .unlocked rfl h fun h0 h => .ok (.inl h0) h (.writeP _ rfl (by simp) rfl)
  | pwl rd ix imm =>
    exact .unlocked rfl h fun h0 h => .indexed h0 (by decide) h fun h => .ok (.inl h0) h (.writeP _ rfl (by simp) rfl)
  | prl ra ix =>
    exact .unlocked rfl h fun h0 h => .indexed h0 (by decide) h fun h => .ok (.inl h0) h (.none (by simp) rfl)
  | padd rd ra rb => exact .unlocked rfl h fun h0 h => .ok (.inl h0) h (.writeP _ rfl (by simp) rfl)
  | pshu rd ra imm => exact .unlocked rfl h fun h0 h => .ok (.inl h0) h (.writeP _ rfl (by simp) rfl)
  | pshd rd ra imm => exact .unlocked rfl h fun h0 h => .ok (.inl h0) h (.writeP _ rfl (by simp) rfl)
  | pdeg ra => exact .unlocked rfl h fun h0 h => .ok (.inl h0) h (.none (by simp) rfl)
  | pmul rd ra rb => exact .unlocked rfl h fun h0 h => .ok (.inl h0) h (.writeP _ rfl (by simp) rfl)
  | psqr rd ra => exact .unlocked rfl h fun h0 h => .ok (.inl h0) h (.writeP _ rfl (by simp) rfl)
  | pred rd ra rb =>
    refine .unlocked rfl h fun h0 h => ?_
    split at h
    · exact .fail h0 h ⟨by decide, nofun, nofun, fun _ => rfl⟩
    · exact .ok (.inl h0) h (.writeP _ rfl (by simp) rfl)
  | ppow rd ra rb ix =>
    refine .unlocked rfl h fun h0 h => ?_
    split at h
    · exact .fail h0 h ⟨by decide, nofun, nofun, fun _ => rfl⟩
    · exact .ok (.inl h0) h (.writeP _ rfl (by simp) rfl)
  | ufrom32 rd imm => exact .unlocked rfl h fun h0 h => .ok (.inl h0) h (.writeU _ rfl (by simp) rfl)
  | uwl rd ix imm =>
    exact .unlocked rfl h fun h0 h => .indexed h0 (by decide) h fun h => .ok (.inl h0) h (.writeU _ rfl (by simp) rfl)
  | url ra ix =>
    exact .unlocked rfl h fun h0 h => .indexed h0 (by decide) h fun h => .ok (.inl h0) h (.none (by simp) rfl)
  | umul rd ra rb => exact .unlocked rfl h fun h0 h => .ok (.inl h0) h (.writeU _ rfl (by simp) rfl)
  | sbwr imm =>
    refine .unlocked rfl h fun h0 h => ?_
    split at h
    · next hr =>
      refine .fail h0 h ⟨by decide, nofun, fun _ => ?_, nofun⟩
      have hb : sbBytes = 128 := rfl
      rw [BitVec.toNat_setWidth]
      have := (immAddr imm).isLt
      omega
    · next hr => exact .ok (.inl h0) h (.writeByte _ (by omega) rfl (by simp) rfl)
  | sbrd imm =>
    refine .unlocked rfl h fun h0 h => ?_
    split at h
    · next hr =>
      have hb : sbBytes = 128 := rfl
      exact .fail h0 h ⟨by decide, nofun, fun _ => by omega, nofun⟩
    · exact .ok (.inl h0) h (.none (by simp) rfl)
  | slenw imm =>
    refine .unlocked rfl h fun h0 h => ?_
    have hb : sbBytes = 128 := rfl
    split at h
    · next hr => exact .fail h0 h ⟨by decide, nofun, fun _ => by omega, nofun⟩
    · next hr =>
      refine .ok (.inl h0) h (.writeSlen ?_ rfl (by simp) rfl)
      rw [BitVec.toNat_setWidth]; omega
  | slenr => exact .unlocked rfl h fun h0 h => .ok (.inl h0) h (.none (by simp) rfl)
  | uparse rd =>
    exact .unlocked rfl h fun h0 h => .parsed h0 h fun v h => .ok (.inl h0) h (.writeU _ rfl (by simp) rfl)
  | ufmt ra =>
    refine .unlocked rfl h fun h0 h => .ok (.inl h0) h (.putText ?_ rfl rfl (by simp) rfl)
    have := toHex_length_le (s.readU ra) (by decide); omega
  | pparse rd =>
    exact .unlocked rfl h fun h0 h => .parsed h0 h fun v h => .ok (.inl h0) h (.writeP _ rfl (by simp) rfl)
  | pfmt ra =>
    refine .unlocked rfl h fun h0 h => .ok (.inl h0) h (.putText ?_ rfl rfl (by simp) rfl)
    have := toHex_length_le (s.readP ra) (by decide); omega
  | gww ix imm =>
    exact .unlocked rfl h fun h0 h => .indexed h0 (by decide) h fun h =>
      .ok (u := (s.writeGen (setGenWord s.gen ix.toNat imm)).present []) (.inl h0) h (.writeGen _ [] rfl (by simp) rfl)
  | grw ix =>
    exact .unlocked rfl h fun h0 h => .indexed h0 (by decide) h fun h => .ok (.inl h0) h (.none (by simp) rfl)
  | arw ix =>
    exact .unlocked rfl h fun h0 h => .indexed h0 (by decide) h fun h => .ok (.inl h0) h (.none (by simp) rfl)
  | gstep => exact .unlocked rfl h fun h0 h => .ok (.inl h0) h (.writeGen _ _ rfl (by decide) rfl)
  | gapply ra =>
    exact .unlocked rfl h fun h0 h => .ok (.inl h0) h
      (.applyPoly (j := .nop) _ _ (.none (by decide) rfl) rfl rfl rfl rfl (by decide) (by simp) rfl rfl rfl rfl)
  | jcomp imm =>
    refine .unlocked rfl h fun h0 h => .parsed h0 h fun v h => .ok (.inl h0) h (.putText ?_ rfl rfl (by simp) rfl)
    have := toHex_length_le (jumpPoly Config.params imm v) (by decide); omega
  | japply =>
    exact .unlocked rfl h fun h0 h => .parsed h0 h fun v h => .ok (.inl h0) h
      (.applyPoly (j := .nop) _ _ (.none (by decide) rfl) rfl rfl rfl rfl (by decide) (by decide) rfl rfl rfl rfl)
  | jump imm =>
    refine .unlocked rfl h fun h0 h => .parsed h0 h fun v h => .ok (.inl h0) h
      (.applyPoly (j := .jcomp imm) _ _ (.putText ?_ rfl rfl (by simp) rfl) rfl rfl rfl rfl (by simp) (by simp)
        rfl rfl rfl rfl)
    have := toHex_length_le (jumpPoly Config.params imm v) (by decide); omega

end Sys2Proof.Machine
end

