-- ==== Sys2Proof/Laws/Operands.lean ====
section
/-! SUPPORT. What replacing a bit field leaves (41_biguint128.md R115, 42_gf2poly.md R144, 44_jump.md R205). -/

namespace Sys2Proof.Machine

/-- Bit `i` after the `n` bits from `lo` up are replaced: the new field's inside it, the old value's outside. -/
theorem getLsbD_replaceBits {w n : Nat} (v : BitVec w) (lo : Nat) (x : BitVec n) (i : Nat) (hi : i < w) :
    (replaceBits v lo x).getLsbD i = if lo ≤ i ∧ i < lo + n then x.getLsbD (i - lo) else v.getLsbD i := by
  simp only [replaceBits, BitVec.getLsbD_or, BitVec.getLsbD_and, BitVec.getLsbD_not, BitVec.getLsbD_shiftLeft,
    BitVec.getLsbD_setWidth, BitVec.getLsbD_allOnes, hi, decide_true, Bool.true_and]
  by_cases h1 : i < lo
  · have h2 : ¬ (lo ≤ i ∧ i < lo + n) := by omega
    simp [h1, h2]
  · have hw : i - lo < w := by omega
    by_cases h3 : i - lo < n
    · have h2 : lo ≤ i ∧ i < lo + n := by omega
      simp [h1, h2, h3, hw]
    · have h2 : ¬ (lo ≤ i ∧ i < lo + n) := by omega
      simp [h1, h2, h3, hw, BitVec.getLsbD_of_ge x (i - lo) (by omega)]

/-- The field just replaced reads as the new value. -/
theorem extract_replaceBits_same {w n : Nat} (v : BitVec w) (lo : Nat) (x : BitVec n) (h : lo + n ≤ w) :
    (replaceBits v lo x).extractLsb' lo n = x := by
  ext i hi
  rw [BitVec.getElem_extractLsb', getLsbD_replaceBits _ _ _ _ (by omega), if_pos (by omega)]
  rw [Nat.add_sub_cancel_left, BitVec.getLsbD_eq_getElem]

/-- A field that does not meet the one replaced keeps its value. -/
theorem extract_replaceBits_other {w n m : Nat} (v : BitVec w) (lo lo' : Nat) (x : BitVec n)
    (hm : lo' + m ≤ w) (h : lo' + m ≤ lo ∨ lo + n ≤ lo') :
    (replaceBits v lo x).extractLsb' lo' m = v.extractLsb' lo' m := by
  ext i hi
  rw [BitVec.getElem_extractLsb', BitVec.getElem_extractLsb', getLsbD_replaceBits _ _ _ _ (by omega),
    if_neg (by omega)]

end Sys2Proof.Machine
end

