-- ==== Sys2Proof/Laws/PerInstr.lean ====
section
/-! SUPPORT. Per-instruction laws of the syntax. Family OpcodeMask: the encoded word of a well-formed command is an
instance of its own row of the opcode table, `CW & mask = match` (30_encoding.md R75, R76). -/

namespace Sys2Proof.Laws

/-- A field's bits that the mask keeps are those of the match word. -/
def meets (f mask want : Fields) : Prop :=
  f.op &&& mask.op = want.op ∧ f.rd &&& mask.rd = want.rd ∧ f.ra &&& mask.ra = want.ra ∧ f.rb &&& mask.rb = want.rb ∧
  f.ix &&& mask.ix = want.ix ∧ f.rsv &&& mask.rsv = want.rsv ∧ f.imm &&& mask.imm = want.imm

/-- A word fits a row when it does field by field. -/
theorem fits_of_meets (r : OpcodeRow) (f m want : Fields) (hm : fields r.mask = m) (hw : fields r.matchWord = want)
    (h : meets f m want) : r.fits (pack f) = true := by
  obtain ⟨h1, h2, h3, h4, h5, h6, h7⟩ := h
  rw [OpcodeRow.fits, beq_iff_eq, ← pack_fields r.mask, pack_and, hm, h1, h2, h3, h4, h5, h6, h7, ← hw]
  exact pack_fields _

/-- A row's match word: the opcode and zeros (30_encoding.md R75). -/
def opOnly (op : BitVec 8) : Fields := ⟨op, 0#4, 0#4, 0#4, 0#4, 0#8, 0#32⟩

theorem opMask (x : BitVec 8) : x &&& 0xff#8 = x := BitVec.and_allOnes

theorem pMask (r : PReg) : reg r &&& 8#4 = 0#4 := by revert r; decide

theorem uMask (r : UReg) : reg r &&& 12#4 = 0#4 := by revert r; decide

theorem uwlMask {imm : Data} (h : uwlImmOk imm = true) : imm &&& 0xFFFF0000#32 = 0#32 := by
  have h' : imm.extractLsb' 16 16 = 0#16 := by simpa [uwlImmOk] using h
  apply BitVec.eq_of_getLsbD_eq
  intro i hi
  have hb := congrArg (fun v => v.getLsbD (i - 16)) h'
  simp only [BitVec.getLsbD_extractLsb', BitVec.getLsbD_zero] at hb
  by_cases h16 : i < 16
  · have hm : ∀ j < 16, (0xFFFF0000#32).getLsbD j = false := by decide
    rw [BitVec.getLsbD_and, hm i h16, Bool.and_false, BitVec.getLsbD_zero]
  · rw [decide_eq_true (by omega), Bool.true_and, show 16 + (i - 16) = i by omega] at hb
    simp [BitVec.getLsbD_and, hb]

theorem sbwrMask {imm : Data} (h : sbwrImmOk imm = true) : imm &&& 0xFF00#32 = 0#32 := by
  have h' : imm.extractLsb' 8 8 = 0#8 := by simpa [sbwrImmOk] using h
  apply BitVec.eq_of_getLsbD_eq
  intro i hi
  have hb := congrArg (fun v => v.getLsbD (i - 8)) h'
  simp only [BitVec.getLsbD_extractLsb', BitVec.getLsbD_zero] at hb
  by_cases h16 : 8 ≤ i ∧ i < 16
  · rw [decide_eq_true (by omega), Bool.true_and, show 8 + (i - 8) = i by omega] at hb
    simp [BitVec.getLsbD_and, hb]
  · have hm : ∀ j < 32, ¬ (8 ≤ j ∧ j < 16) → (0xFF00#32).getLsbD j = false := by decide
    rw [BitVec.getLsbD_and, hm i hi h16, Bool.and_false, BitVec.getLsbD_zero]

/-- The encoded word is an instance of a row with the command's own opcode (30_encoding.md R75, R76). -/
def OpcodeMask.Statement (i : Instr) : Prop :=
  i.wellFormed = true → ∃ r ∈ opcodeTable, r.op = i.fields.op ∧ r.fits (encode i) = true

theorem OpcodeMask.nop : OpcodeMask.Statement .nop := fun _ =>
  ⟨opcodeTable[0], List.getElem_mem _, rfl,
    fits_of_meets _ _ ⟨0xff#8, 15#4, 15#4, 15#4, 15#4, 0xff#8, 0xffffffff#32⟩ (opOnly 0x00#8) (by decide) (by decide)
      ⟨opMask _, BitVec.zero_and, BitVec.zero_and, BitVec.zero_and, BitVec.zero_and, BitVec.zero_and, BitVec.zero_and⟩⟩

theorem OpcodeMask.statrd : OpcodeMask.Statement .statrd := fun _ =>
  ⟨opcodeTable[1], List.getElem_mem _, rfl,
    fits_of_meets _ _ ⟨0xff#8, 15#4, 15#4, 15#4, 15#4, 0xff#8, 0xffffffff#32⟩ (opOnly 0x01#8) (by decide) (by decide)
      ⟨opMask _, BitVec.zero_and, BitVec.zero_and, BitVec.zero_and, BitVec.zero_and, BitVec.zero_and, BitVec.zero_and⟩⟩

theorem OpcodeMask.inford : OpcodeMask.Statement .inford := fun _ =>
  ⟨opcodeTable[2], List.getElem_mem _, rfl,
    fits_of_meets _ _ ⟨0xff#8, 15#4, 15#4, 15#4, 15#4, 0xff#8, 0xffffffff#32⟩ (opOnly 0x02#8) (by decide) (by decide)
      ⟨opMask _, BitVec.zero_and, BitVec.zero_and, BitVec.zero_and, BitVec.zero_and, BitVec.zero_and, BitVec.zero_and⟩⟩

theorem OpcodeMask.errclr : OpcodeMask.Statement .errclr := fun _ =>
  ⟨opcodeTable[3], List.getElem_mem _, rfl,
    fits_of_meets _ _ ⟨0xff#8, 15#4, 15#4, 15#4, 15#4, 0xff#8, 0xffffffff#32⟩ (opOnly 0x03#8) (by decide) (by decide)
      ⟨opMask _, BitVec.zero_and, BitVec.zero_and, BitVec.zero_and, BitVec.zero_and, BitVec.zero_and, BitVec.zero_and⟩⟩

theorem OpcodeMask.pclr (rd : PReg) : OpcodeMask.Statement (.pclr rd) := fun _ =>
  ⟨opcodeTable[4], List.getElem_mem _, rfl,
    fits_of_meets _ _ ⟨0xff#8, 8#4, 15#4, 15#4, 15#4, 0xff#8, 0xffffffff#32⟩ (opOnly 0x10#8) (by decide) (by decide)
      ⟨opMask _, pMask rd, BitVec.zero_and, BitVec.zero_and, BitVec.zero_and, BitVec.zero_and, BitVec.zero_and⟩⟩

theorem OpcodeMask.pseti (rd : PReg) (imm : Data) : OpcodeMask.Statement (.pseti rd imm) := fun _ =>
  ⟨opcodeTable[5], List.getElem_mem _, rfl,
    fits_of_meets _ _ ⟨0xff#8, 8#4, 15#4, 15#4, 15#4, 0xff#8, 0x0#32⟩ (opOnly 0x11#8) (by decide) (by decide)
      ⟨opMask _, pMask rd, BitVec.zero_and, BitVec.zero_and, BitVec.zero_and, BitVec.zero_and, BitVec.and_zero⟩⟩

theorem OpcodeMask.pldc (rd : PReg) : OpcodeMask.Statement (.pldc rd) := fun _ =>
  ⟨opcodeTable[6], List.getElem_mem _, rfl,
    fits_of_meets _ _ ⟨0xff#8, 8#4, 15#4, 15#4, 15#4, 0xff#8, 0xffffffff#32⟩ (opOnly 0x12#8) (by decide) (by decide)
      ⟨opMask _, pMask rd, BitVec.zero_and, BitVec.zero_and, BitVec.zero_and, BitVec.zero_and, BitVec.zero_and⟩⟩

theorem OpcodeMask.pwl (rd : PReg) (ix : Index) (imm : Data) : OpcodeMask.Statement (.pwl rd ix imm) := fun _ =>
  ⟨opcodeTable[7], List.getElem_mem _, rfl,
    fits_of_meets _ _ ⟨0xff#8, 8#4, 15#4, 15#4, 0#4, 0xff#8, 0x0#32⟩ (opOnly 0x13#8) (by decide) (by decide)
      ⟨opMask _, pMask rd, BitVec.zero_and, BitVec.zero_and, BitVec.and_zero, BitVec.zero_and, BitVec.and_zero⟩⟩

theorem OpcodeMask.prl (ra : PReg) (ix : Index) : OpcodeMask.Statement (.prl ra ix) := fun _ =>
  ⟨opcodeTable[8], List.getElem_mem _, rfl,
    fits_of_meets _ _ ⟨0xff#8, 15#4, 8#4, 15#4, 0#4, 0xff#8, 0xffffffff#32⟩ (opOnly 0x14#8) (by decide) (by decide)
      ⟨opMask _, BitVec.zero_and, pMask ra, BitVec.zero_and, BitVec.and_zero, BitVec.zero_and, BitVec.zero_and⟩⟩

theorem OpcodeMask.padd (rd : PReg) (ra : PReg) (rb : PReg) : OpcodeMask.Statement (.padd rd ra rb) := fun _ =>
  ⟨opcodeTable[9], List.getElem_mem _, rfl,
    fits_of_meets _ _ ⟨0xff#8, 8#4, 8#4, 8#4, 15#4, 0xff#8, 0xffffffff#32⟩ (opOnly 0x15#8) (by decide) (by decide)
      ⟨opMask _, pMask rd, pMask ra, pMask rb, BitVec.zero_and, BitVec.zero_and, BitVec.zero_and⟩⟩

theorem OpcodeMask.pshu (rd : PReg) (ra : PReg) (imm : Data) : OpcodeMask.Statement (.pshu rd ra imm) := fun _ =>
  ⟨opcodeTable[10], List.getElem_mem _, rfl,
    fits_of_meets _ _ ⟨0xff#8, 8#4, 8#4, 15#4, 15#4, 0xff#8, 0x0#32⟩ (opOnly 0x16#8) (by decide) (by decide)
      ⟨opMask _, pMask rd, pMask ra, BitVec.zero_and, BitVec.zero_and, BitVec.zero_and, BitVec.and_zero⟩⟩

theorem OpcodeMask.pshd (rd : PReg) (ra : PReg) (imm : Data) : OpcodeMask.Statement (.pshd rd ra imm) := fun _ =>
  ⟨opcodeTable[11], List.getElem_mem _, rfl,
    fits_of_meets _ _ ⟨0xff#8, 8#4, 8#4, 15#4, 15#4, 0xff#8, 0x0#32⟩ (opOnly 0x17#8) (by decide) (by decide)
      ⟨opMask _, pMask rd, pMask ra, BitVec.zero_and, BitVec.zero_and, BitVec.zero_and, BitVec.and_zero⟩⟩

theorem OpcodeMask.pdeg (ra : PReg) : OpcodeMask.Statement (.pdeg ra) := fun _ =>
  ⟨opcodeTable[12], List.getElem_mem _, rfl,
    fits_of_meets _ _ ⟨0xff#8, 15#4, 8#4, 15#4, 15#4, 0xff#8, 0xffffffff#32⟩ (opOnly 0x18#8) (by decide) (by decide)
      ⟨opMask _, BitVec.zero_and, pMask ra, BitVec.zero_and, BitVec.zero_and, BitVec.zero_and, BitVec.zero_and⟩⟩

theorem OpcodeMask.pmul (rd : PReg) (ra : PReg) (rb : PReg) : OpcodeMask.Statement (.pmul rd ra rb) := fun _ =>
  ⟨opcodeTable[13], List.getElem_mem _, rfl,
    fits_of_meets _ _ ⟨0xff#8, 8#4, 8#4, 8#4, 15#4, 0xff#8, 0xffffffff#32⟩ (opOnly 0x19#8) (by decide) (by decide)
      ⟨opMask _, pMask rd, pMask ra, pMask rb, BitVec.zero_and, BitVec.zero_and, BitVec.zero_and⟩⟩

theorem OpcodeMask.psqr (rd : PReg) (ra : PReg) : OpcodeMask.Statement (.psqr rd ra) := fun _ =>
  ⟨opcodeTable[14], List.getElem_mem _, rfl,
    fits_of_meets _ _ ⟨0xff#8, 8#4, 8#4, 15#4, 15#4, 0xff#8, 0xffffffff#32⟩ (opOnly 0x1A#8) (by decide) (by decide)
      ⟨opMask _, pMask rd, pMask ra, BitVec.zero_and, BitVec.zero_and, BitVec.zero_and, BitVec.zero_and⟩⟩

theorem OpcodeMask.pred (rd : PReg) (ra : PReg) (rb : PReg) : OpcodeMask.Statement (.pred rd ra rb) := fun _ =>
  ⟨opcodeTable[15], List.getElem_mem _, rfl,
    fits_of_meets _ _ ⟨0xff#8, 8#4, 8#4, 8#4, 15#4, 0xff#8, 0xffffffff#32⟩ (opOnly 0x1B#8) (by decide) (by decide)
      ⟨opMask _, pMask rd, pMask ra, pMask rb, BitVec.zero_and, BitVec.zero_and, BitVec.zero_and⟩⟩

theorem OpcodeMask.ppow (rd : PReg) (ra : PReg) (rb : UReg) (ix : PReg) : OpcodeMask.Statement (.ppow rd ra rb ix) := fun _ =>
  ⟨opcodeTable[16], List.getElem_mem _, rfl,
    fits_of_meets _ _ ⟨0xff#8, 8#4, 8#4, 12#4, 8#4, 0xff#8, 0xffffffff#32⟩ (opOnly 0x1C#8) (by decide) (by decide)
      ⟨opMask _, pMask rd, pMask ra, uMask rb, pMask ix, BitVec.zero_and, BitVec.zero_and⟩⟩

theorem OpcodeMask.ufrom32 (rd : UReg) (imm : Data) : OpcodeMask.Statement (.ufrom32 rd imm) := fun _ =>
  ⟨opcodeTable[17], List.getElem_mem _, rfl,
    fits_of_meets _ _ ⟨0xff#8, 12#4, 15#4, 15#4, 15#4, 0xff#8, 0x0#32⟩ (opOnly 0x20#8) (by decide) (by decide)
      ⟨opMask _, uMask rd, BitVec.zero_and, BitVec.zero_and, BitVec.zero_and, BitVec.zero_and, BitVec.and_zero⟩⟩

theorem OpcodeMask.uwl (rd : UReg) (ix : Index) (imm : Data) : OpcodeMask.Statement (.uwl rd ix imm) := fun h =>
  ⟨opcodeTable[18], List.getElem_mem _, rfl,
    fits_of_meets _ _ ⟨0xff#8, 12#4, 15#4, 15#4, 0#4, 0xff#8, 0xffff0000#32⟩ (opOnly 0x21#8) (by decide) (by decide)
      ⟨opMask _, uMask rd, BitVec.zero_and, BitVec.zero_and, BitVec.and_zero, BitVec.zero_and, uwlMask h⟩⟩

theorem OpcodeMask.url (ra : UReg) (ix : Index) : OpcodeMask.Statement (.url ra ix) := fun _ =>
  ⟨opcodeTable[19], List.getElem_mem _, rfl,
    fits_of_meets _ _ ⟨0xff#8, 15#4, 12#4, 15#4, 0#4, 0xff#8, 0xffffffff#32⟩ (opOnly 0x22#8) (by decide) (by decide)
      ⟨opMask _, BitVec.zero_and, uMask ra, BitVec.zero_and, BitVec.and_zero, BitVec.zero_and, BitVec.zero_and⟩⟩

theorem OpcodeMask.umul (rd : UReg) (ra : UReg) (rb : UReg) : OpcodeMask.Statement (.umul rd ra rb) := fun _ =>
  ⟨opcodeTable[20], List.getElem_mem _, rfl,
    fits_of_meets _ _ ⟨0xff#8, 12#4, 12#4, 12#4, 15#4, 0xff#8, 0xffffffff#32⟩ (opOnly 0x23#8) (by decide) (by decide)
      ⟨opMask _, uMask rd, uMask ra, uMask rb, BitVec.zero_and, BitVec.zero_and, BitVec.zero_and⟩⟩

theorem OpcodeMask.sbwr (imm : Data) : OpcodeMask.Statement (.sbwr imm) := fun h =>
  ⟨opcodeTable[21], List.getElem_mem _, rfl,
    fits_of_meets _ _ ⟨0xff#8, 15#4, 15#4, 15#4, 15#4, 0xff#8, 0xff00#32⟩ (opOnly 0x30#8) (by decide) (by decide)
      ⟨opMask _, BitVec.zero_and, BitVec.zero_and, BitVec.zero_and, BitVec.zero_and, BitVec.zero_and, sbwrMask h⟩⟩

theorem OpcodeMask.sbrd (imm : Data) : OpcodeMask.Statement (.sbrd imm) := fun _ =>
  ⟨opcodeTable[22], List.getElem_mem _, rfl,
    fits_of_meets _ _ ⟨0xff#8, 15#4, 15#4, 15#4, 15#4, 0xff#8, 0x0#32⟩ (opOnly 0x31#8) (by decide) (by decide)
      ⟨opMask _, BitVec.zero_and, BitVec.zero_and, BitVec.zero_and, BitVec.zero_and, BitVec.zero_and, BitVec.and_zero⟩⟩

theorem OpcodeMask.slenw (imm : Data) : OpcodeMask.Statement (.slenw imm) := fun _ =>
  ⟨opcodeTable[23], List.getElem_mem _, rfl,
    fits_of_meets _ _ ⟨0xff#8, 15#4, 15#4, 15#4, 15#4, 0xff#8, 0x0#32⟩ (opOnly 0x32#8) (by decide) (by decide)
      ⟨opMask _, BitVec.zero_and, BitVec.zero_and, BitVec.zero_and, BitVec.zero_and, BitVec.zero_and, BitVec.and_zero⟩⟩

theorem OpcodeMask.slenr : OpcodeMask.Statement .slenr := fun _ =>
  ⟨opcodeTable[24], List.getElem_mem _, rfl,
    fits_of_meets _ _ ⟨0xff#8, 15#4, 15#4, 15#4, 15#4, 0xff#8, 0xffffffff#32⟩ (opOnly 0x33#8) (by decide) (by decide)
      ⟨opMask _, BitVec.zero_and, BitVec.zero_and, BitVec.zero_and, BitVec.zero_and, BitVec.zero_and, BitVec.zero_and⟩⟩

theorem OpcodeMask.uparse (rd : UReg) : OpcodeMask.Statement (.uparse rd) := fun _ =>
  ⟨opcodeTable[25], List.getElem_mem _, rfl,
    fits_of_meets _ _ ⟨0xff#8, 12#4, 15#4, 15#4, 15#4, 0xff#8, 0xffffffff#32⟩ (opOnly 0x34#8) (by decide) (by decide)
      ⟨opMask _, uMask rd, BitVec.zero_and, BitVec.zero_and, BitVec.zero_and, BitVec.zero_and, BitVec.zero_and⟩⟩

theorem OpcodeMask.ufmt (ra : UReg) : OpcodeMask.Statement (.ufmt ra) := fun _ =>
  ⟨opcodeTable[26], List.getElem_mem _, rfl,
    fits_of_meets _ _ ⟨0xff#8, 15#4, 12#4, 15#4, 15#4, 0xff#8, 0xffffffff#32⟩ (opOnly 0x35#8) (by decide) (by decide)
      ⟨opMask _, BitVec.zero_and, uMask ra, BitVec.zero_and, BitVec.zero_and, BitVec.zero_and, BitVec.zero_and⟩⟩

theorem OpcodeMask.pparse (rd : PReg) : OpcodeMask.Statement (.pparse rd) := fun _ =>
  ⟨opcodeTable[27], List.getElem_mem _, rfl,
    fits_of_meets _ _ ⟨0xff#8, 8#4, 15#4, 15#4, 15#4, 0xff#8, 0xffffffff#32⟩ (opOnly 0x36#8) (by decide) (by decide)
      ⟨opMask _, pMask rd, BitVec.zero_and, BitVec.zero_and, BitVec.zero_and, BitVec.zero_and, BitVec.zero_and⟩⟩

theorem OpcodeMask.pfmt (ra : PReg) : OpcodeMask.Statement (.pfmt ra) := fun _ =>
  ⟨opcodeTable[28], List.getElem_mem _, rfl,
    fits_of_meets _ _ ⟨0xff#8, 15#4, 8#4, 15#4, 15#4, 0xff#8, 0xffffffff#32⟩ (opOnly 0x37#8) (by decide) (by decide)
      ⟨opMask _, BitVec.zero_and, pMask ra, BitVec.zero_and, BitVec.zero_and, BitVec.zero_and, BitVec.zero_and⟩⟩

theorem OpcodeMask.gww (ix : Index) (imm : Data) : OpcodeMask.Statement (.gww ix imm) := fun _ =>
  ⟨opcodeTable[29], List.getElem_mem _, rfl,
    fits_of_meets _ _ ⟨0xff#8, 15#4, 15#4, 15#4, 0#4, 0xff#8, 0x0#32⟩ (opOnly 0x40#8) (by decide) (by decide)
      ⟨opMask _, BitVec.zero_and, BitVec.zero_and, BitVec.zero_and, BitVec.and_zero, BitVec.zero_and, BitVec.and_zero⟩⟩

theorem OpcodeMask.grw (ix : Index) : OpcodeMask.Statement (.grw ix) := fun _ =>
  ⟨opcodeTable[30], List.getElem_mem _, rfl,
    fits_of_meets _ _ ⟨0xff#8, 15#4, 15#4, 15#4, 0#4, 0xff#8, 0xffffffff#32⟩ (opOnly 0x41#8) (by decide) (by decide)
      ⟨opMask _, BitVec.zero_and, BitVec.zero_and, BitVec.zero_and, BitVec.and_zero, BitVec.zero_and, BitVec.zero_and⟩⟩

theorem OpcodeMask.arw (ix : Index) : OpcodeMask.Statement (.arw ix) := fun _ =>
  ⟨opcodeTable[31], List.getElem_mem _, rfl,
    fits_of_meets _ _ ⟨0xff#8, 15#4, 15#4, 15#4, 0#4, 0xff#8, 0xffffffff#32⟩ (opOnly 0x42#8) (by decide) (by decide)
      ⟨opMask _, BitVec.zero_and, BitVec.zero_and, BitVec.zero_and, BitVec.and_zero, BitVec.zero_and, BitVec.zero_and⟩⟩

theorem OpcodeMask.gstep : OpcodeMask.Statement .gstep := fun _ =>
  ⟨opcodeTable[32], List.getElem_mem _, rfl,
    fits_of_meets _ _ ⟨0xff#8, 15#4, 15#4, 15#4, 15#4, 0xff#8, 0xffffffff#32⟩ (opOnly 0x43#8) (by decide) (by decide)
      ⟨opMask _, BitVec.zero_and, BitVec.zero_and, BitVec.zero_and, BitVec.zero_and, BitVec.zero_and, BitVec.zero_and⟩⟩

theorem OpcodeMask.gapply (ra : PReg) : OpcodeMask.Statement (.gapply ra) := fun _ =>
  ⟨opcodeTable[33], List.getElem_mem _, rfl,
    fits_of_meets _ _ ⟨0xff#8, 15#4, 8#4, 15#4, 15#4, 0xff#8, 0xffffffff#32⟩ (opOnly 0x44#8) (by decide) (by decide)
      ⟨opMask _, BitVec.zero_and, pMask ra, BitVec.zero_and, BitVec.zero_and, BitVec.zero_and, BitVec.zero_and⟩⟩

theorem OpcodeMask.jcomp (imm : Data) : OpcodeMask.Statement (.jcomp imm) := fun _ =>
  ⟨opcodeTable[34], List.getElem_mem _, rfl,
    fits_of_meets _ _ ⟨0xff#8, 15#4, 15#4, 15#4, 15#4, 0xff#8, 0x0#32⟩ (opOnly 0x45#8) (by decide) (by decide)
      ⟨opMask _, BitVec.zero_and, BitVec.zero_and, BitVec.zero_and, BitVec.zero_and, BitVec.zero_and, BitVec.and_zero⟩⟩

theorem OpcodeMask.japply : OpcodeMask.Statement .japply := fun _ =>
  ⟨opcodeTable[35], List.getElem_mem _, rfl,
    fits_of_meets _ _ ⟨0xff#8, 15#4, 15#4, 15#4, 15#4, 0xff#8, 0xffffffff#32⟩ (opOnly 0x46#8) (by decide) (by decide)
      ⟨opMask _, BitVec.zero_and, BitVec.zero_and, BitVec.zero_and, BitVec.zero_and, BitVec.zero_and, BitVec.zero_and⟩⟩

theorem OpcodeMask.jump (imm : Data) : OpcodeMask.Statement (.jump imm) := fun _ =>
  ⟨opcodeTable[36], List.getElem_mem _, rfl,
    fits_of_meets _ _ ⟨0xff#8, 15#4, 15#4, 15#4, 15#4, 0xff#8, 0x0#32⟩ (opOnly 0x47#8) (by decide) (by decide)
      ⟨opMask _, BitVec.zero_and, BitVec.zero_and, BitVec.zero_and, BitVec.zero_and, BitVec.zero_and, BitVec.and_zero⟩⟩

end Sys2Proof.Laws
end

