-- ==== Sys2Proof/Laws/Poly.lean ====
section
/-! SUPPORT. A register value read as a true polynomial (00_scope.md R8). -/

namespace Sys2Proof.Machine

/-- The coefficients of a register value are its bits (00_scope.md R8). -/
theorem coeff_toPoly (x : Poly) (k : Nat) : (toPoly x).coeff k = if x.getLsbD k then 1 else 0 := by
  simp only [toPoly, Polynomial.finsetSum_coeff]
  by_cases hk : k < 256
  · rw [Finset.sum_eq_single k]
    · split <;> simp
    · intro i _ hi
      split <;> simp [Polynomial.coeff_X_pow, Ne.symm hi]
    · intro h
      exact absurd (Finset.mem_range.mpr hk) h
  · rw [BitVec.getLsbD_of_ge x k (by omega)]
    apply Finset.sum_eq_zero
    intro i hi
    have : i < 256 := Finset.mem_range.mp hi
    split
    · rw [Polynomial.coeff_X_pow, if_neg (by omega)]
    · simp

/-- The highest set coefficient (42_gf2poly.md R133). -/
theorem pDeg_eq {x : Poly} {k : Nat} (hk : x.getLsbD k = true) (ha : ∀ j, k < j → x.getLsbD j = false) :
    pDeg x = k := by
  have hx : x ≠ 0#256 := by rintro rfl; simp at hk
  have hx' : x.toNat ≠ 0 := fun h => hx (BitVec.eq_of_toNat_eq (by simpa using h))
  simp only [pDeg, hx, if_false]
  congr 1
  rw [Nat.log2_eq_iff hx']
  exact ⟨Nat.ge_two_pow_of_testBit hk, Nat.lt_pow_two_of_testBit _ fun i hi => ha i (by omega)⟩

end Sys2Proof.Machine
end

