-- ==== Sys2Proof/Laws/Step.lean ====
section
/-! SUPPORT. What one step can do, said once (30_encoding.md R81; 70_reset_and_hazards.md R270, R274). -/

namespace Sys2Proof.Machine

/-- A word that is not well-formed: turned away while locked, else ILLEGAL (60_exceptions.md R242, R245). -/
theorem illegal_cases {cw : CmdWord} {s t : State} (h : illegal cw s = .next t) :
    (s.errcode ≠ 0#8 ∧ t = s.answer lockedStatus 0#32) ∨
      (s.errcode = 0#8 ∧ t = (s.latch Err.illegal.code (cw.extractLsb' 0 32)).answer Err.illegal.code 0#32) := by
  rcases whenUnlocked_cases h with h | ⟨h0, h'⟩
  · exact .inl h
  · injection h' with h'
    exact .inr ⟨h0, h'.symm⟩

/-- Everything a step can do: nothing, the reset event, a command, or a word that is not well-formed. -/
theorem step_cases {s t : State} (h : step s = .next t) :
    (s.input = [] ∧ t = s) ∨
    (∃ rest, s.input = .reset :: rest ∧ t = (s.withInput rest).hostReset) ∨
    (∃ cw rest i, s.input = .command cw :: rest ∧ decode cw = .ok i ∧ exec i (s.withInput rest) = .next t) ∨
    (∃ cw rest e, s.input = .command cw :: rest ∧ decode cw = .error e ∧ illegal cw (s.withInput rest) = .next t) := by
  unfold step at h
  split at h
  · next hi => injection h with h; exact .inl ⟨hi, h.symm⟩
  · next rest hi => injection h with h; exact .inr (.inl ⟨rest, hi, h.symm⟩)
  · next cw rest hi =>
    unfold issue at h
    split at h
    · next i hd => exact .inr (.inr (.inl ⟨cw, rest, i, hi, hd, h⟩))
    · next e hd => exact .inr (.inr (.inr ⟨cw, rest, e, hi, hd, h⟩))

end Sys2Proof.Machine
end

