-- ==== Sys2Proof/Tests/Slice0.lean ====
section
/-! SUPPORT. The model's own tests. Expected values are those of 95_test_vectors.md (its section numbers stand beside
them) or worked out by hand from the rule named. Then, for every obligation with hypotheses, states that meet them. -/

namespace Sys2Proof.Tests

open Sys2Proof Sys2Proof.Machine

/-! ### Helpers -/

/-- The next state, if there is one. -/
def after : Result → Option State
  | .next t => some t
  | .fault _ => none
  | .refused _ => none

theorem next_of_after {r : Result} {t : State} (h : after r = some t) : r = .next t := by
  cases r <;> simp_all [after]

/-- The state after one word given by the host. -/
def run1 (s : State) (w : Nat) : Option State := after (step (s.withFetchWord 64 w))

/-- The last response of a result, as numbers. -/
def said (t : Option State) : Option (Nat × Nat) :=
  (t.bind (·.responses.head?)).map fun r => (r.status.toNat, r.data.toNat)

/-- The response, `STATUS` and `ERRINFO` after one word from reset, as the rows of 95_test_vectors.md section 2 have
them. -/
def row (w : Nat) : Option (List Nat) :=
  (run1 State.reset w).bind fun t =>
    (said (some t)).map fun r => [r.1, r.2, t.status.toNat, t.errinfo.toNat]

/-- A `P` register afterwards. -/
def pAt (i : PReg) (t : Option State) : Option Poly := t.map (·.readP i)

/-- A `U` register afterwards. -/
def uAt (i : UReg) (t : Option State) : Option U128 := t.map (·.readU i)

/-- The string afterwards. -/
def strAt (t : Option State) : Option String :=
  t.map fun t => String.ofList (t.str.map fun c => Char.ofNat c.toNat)

/-- Characters as bytes. -/
def text (x : String) : Text := x.toList.map fun c => BitVec.ofNat 8 c.toNat

/-- Reset with one `P` register set. -/
def withP (i : PReg) (v : Poly) : State := State.reset.writeP i v

/-- Reset with one `U` register set. -/
def withU (i : UReg) (v : U128) : State := State.reset.writeU i v

/-- Reset with a string. -/
def withText (x : String) : State := State.reset.putText (text x)

/-- Reset, locked by error `code` with `info`. -/
def lockedBy (code : BitVec 8) (info : Data) : State := State.reset.latch code info

/-- CFG-ROT of 95_test_vectors.md section 0. -/
def rot : XjeParams := ⟨1#256 <<< 128 ||| 1#256, fun s => s.rotateLeft 1⟩

/-- The literal `CPX` of 95_test_vectors.md section 3.2. -/
def cpx : Poly := 0x100000000008101840085118000000001#256

/-- The test state `g` of 95_test_vectors.md section 0. -/
def g : Gen := 0x0123456789ABCDEFFEDCBA9876543210#128

/-! ### WellFormed: each check refuses an ill-formed term, and each rejection of a word has a word -/

theorem test_wellformed_uwl : (Instr.uwl 1 0#4 0x10000#32).wellFormed = false ∧
    (Instr.uwl 1 8#4 0xFFFF#32).wellFormed = true := by decide

theorem test_wellformed_sbwr : (Instr.sbwr 0x100#32).wellFormed = false ∧
    (Instr.sbwr 0xFFFF00FF#32).wellFormed = true := by decide

/-- 30_encoding.md R76 items 1 to 5, on words of 95_test_vectors.md section 2. -/
theorem test_reject_each_item :
    decode 0x0000000000000004#64 = .error .reservedOpcode ∧ decode 0x00000000000000FF#64 = .error .reservedOpcode ∧
    decode 0x0000000001000015#64 = .error .reservedField ∧ decode 0x0000000000000100#64 = .error .unusedField ∧
    decode 0x0000000100000001#64 = .error .unusedField ∧ decode 0x0000000000100015#64 = .error .unusedField ∧
    decode 0x0000000000008015#64 = .error .registerIndex ∧ decode 0x0000000000080015#64 = .error .registerIndex ∧
    decode 0x0000000000000420#64 = .error .registerIndex ∧ decode 0x000000000082001C#64 = .error .registerIndex ∧
    decode 0x0001000000000121#64 = .error .immediateBits ∧ decode 0x0000010000000030#64 = .error .immediateBits := by
  decide

/-- Section 2: what the refused words do. -/
theorem test_illegal_rows :
    row 0x0000000000000100 = some [2, 0, 2, 0x100] ∧ row 0x0100000000000000 = some [2, 0, 2, 0] ∧
    row 0x0000000001000015 = some [2, 0, 2, 0x01000015] ∧ row 0x0000000000000815 = some [2, 0, 2, 0x815] ∧
    row 0x000000000082001C = some [2, 0, 2, 0x82001C] ∧ row 0x0000010000000030 = some [2, 0, 2, 0x30] ∧
    row 0x0000000000000146 = some [2, 0, 2, 0x146] ∧ row 0x0000000100000046 = some [2, 0, 2, 0x46] := by decide

/-- Section 2: RANGE and REDZERO rows. -/
theorem test_range_redzero_rows :
    row 0x000000000072301C = some [4, 0, 4, 0] ∧ row 0x0000000000800121 = some [3, 0, 3, 8] ∧
    row 0x0000000000800014 = some [3, 0, 3, 8] ∧ row 0x0080000000000030 = some [3, 0, 3, 0x80] ∧
    row 0x0000008000000031 = some [3, 0, 3, 0x80] ∧ row 0x0000008100000032 = some [3, 0, 3, 0x81] ∧
    row 0x0000000000400040 = some [3, 0, 3, 4] ∧ row 0x0000000000F00041 = some [3, 0, 3, 0xF] := by decide

/-! ### Decode: a word of every command, written from R71, R72 and R75 -/

theorem test_decode_system :
    decode 0x0000000000000000#64 = .ok .nop ∧ decode 0x0000000000000001#64 = .ok .statrd ∧
    decode 0x0000000000000002#64 = .ok .inford ∧ decode 0x0000000000000003#64 = .ok .errclr := by decide

theorem test_decode_polynomial :
    decode 0x0000000000000310#64 = .ok (.pclr 3) ∧ decode 0x0000000B00000311#64 = .ok (.pseti 3 0xB#32) ∧
    decode 0x0000000000000112#64 = .ok (.pldc 1) ∧ decode 0x8000000000700513#64 = .ok (.pwl 5 7#4 0x80000000#32) ∧
    decode 0x0000000000705014#64 = .ok (.prl 5 7#4) ∧ decode 0x0000000000074615#64 = .ok (.padd 6 4 7) ∧
    decode 0x000000FF00000116#64 = .ok (.pshu 1 0 255#32) ∧ decode 0x0000002100002717#64 = .ok (.pshd 7 2 33#32) ∧
    decode 0x0000000000002018#64 = .ok (.pdeg 2) ∧ decode 0x0000000000010219#64 = .ok (.pmul 2 0 1) ∧
    decode 0x000000000000211A#64 = .ok (.psqr 1 2) ∧ decode 0x000000000003241B#64 = .ok (.pred 4 2 3) ∧
    decode 0x000000000072301C#64 = .ok (.ppow 0 3 2 7) := by decide

theorem test_decode_integer :
    decode 0x0000000300000020#64 = .ok (.ufrom32 0 3#32) ∧ decode 0x0000FFFF00700121#64 = .ok (.uwl 1 7#4 0xFFFF#32) ∧
    decode 0x0000000000002022#64 = .ok (.url 2 0#4) ∧ decode 0x0000000000010223#64 = .ok (.umul 2 0 1) := by decide

theorem test_decode_codec :
    decode 0x0001004200000030#64 = .ok (.sbwr 0x00010042#32) ∧ decode 0x0000001600000031#64 = .ok (.sbrd 22#32) ∧
    decode 0x0000000200000032#64 = .ok (.slenw 2#32) ∧ decode 0x0000000000000033#64 = .ok .slenr ∧
    decode 0x0000000000000134#64 = .ok (.uparse 1) ∧ decode 0x0000000000003035#64 = .ok (.ufmt 3) ∧
    decode 0x0000000000000736#64 = .ok (.pparse 7) ∧ decode 0x0000000000002037#64 = .ok (.pfmt 2) := by decide

theorem test_decode_jump :
    decode 0x0123456700300040#64 = .ok (.gww 3#4 0x01234567#32) ∧ decode 0x0000000000100041#64 = .ok (.grw 1#4) ∧
    decode 0x0000000000300042#64 = .ok (.arw 3#4) ∧ decode 0x0000000000000043#64 = .ok .gstep ∧
    decode 0x0000000000005044#64 = .ok (.gapply 5) ∧ decode 0x0000008B00000045#64 = .ok (.jcomp 139#32) ∧
    decode 0x0000000000000046#64 = .ok .japply ∧ decode 0x0000000300000047#64 = .ok (.jump 3#32) := by decide

/-- The host's view of a table row: bits at `nbits` and above are zero; what is not well-formed decodes to nothing. -/
theorem test_decodeTableWord :
    decodeTableWord 64 0x000000000012021C = some (.ppow 2 0 2 1) ∧ decodeTableWord 64 0x04 = none ∧
    decodeTableWord 8 0x12300043 = some .gstep := by decide

/-- The columns of R75: 37 rows, and their opcodes differ. -/
theorem test_table : opcodeTable.length = 37 ∧ (opcodeTable.map (·.op)).Nodup := by decide

/-! ### System commands (section 3.4) -/

theorem test_nop_keeps_the_lock : (run1 (lockedBy 4 0) 0x0).map (·.status) = some 4#32 ∧
    said (run1 (lockedBy 4 0) 0x0) = some (0, 0) := by decide
theorem test_statrd : said (run1 (lockedBy 4 0) 0x1) = some (0, 4) := by decide
theorem test_inford : said (run1 (lockedBy 1 77) 0x2) = some (0, 77) := by decide
theorem test_errclr : (run1 (lockedBy 2 0x100) 0x3).map (fun t => (t.status, t.errinfo)) = some (0, 0) := by decide
theorem test_locked_word : said (run1 (lockedBy 4 0) 0x0000000300000211) = some (5, 0) ∧
    pAt 2 (run1 (lockedBy 4 0) 0x0000000300000211) = some 0 ∧
    said (run1 (lockedBy 4 0) 0xFF) = some (5, 0) := by decide

/-! ### Polynomial unit (section 3.2) -/

theorem test_pclr : pAt 3 (run1 (withP 3 5) 0x310) = some 0 := by decide
theorem test_pseti : pAt 0 (run1 (withP 0 (-1)) 0x0000000500000011) = some 5 := by decide
theorem test_pldc : pAt 1 (after (pldcWith rot 1 State.reset)) =
    some 0x100000000000000000000000000000001#256 := by decide
theorem test_pwl : pAt 5 (run1 State.reset 0x8000000000700513) = some (1#256 <<< 255) := by decide
theorem test_prl : said (run1 (withP 5 (1#256 <<< 255)) 0x0000000000705014) = some (0, 0x80000000) := by decide
theorem test_padd_same : pAt 4 (run1 (withP 4 6) 0x0000000000044415) = some 0 := by decide
theorem test_padd : pAt 0 (after (execPadd 0 1 2 ((withP 1 12).writeP 2 10))) = some 6 := by decide
theorem test_pshu : pAt 1 (after (execPshu 1 0 1 (withP 0 (1#256 <<< 255 ||| 1#256)))) = some 2 := by decide
theorem test_pshu_max : pAt 0 (run1 (withP 0 1) 0xFFFFFFFF00000016) = some 0 := by decide
theorem test_pshd : pAt 1 (after (execPshd 1 0 33 (withP 0 (1#256 <<< 255 ||| 1#256)))) =
    some (1#256 <<< 222) := by decide
theorem test_pshd_top : pAt 1 (after (execPshd 1 0 255 (withP 0 (1#256 <<< 255 ||| 1#256)))) = some 1 := by decide
theorem test_pdeg_zero : said (run1 State.reset 0x2018) = some (0, 0xFFFFFFFF) := by decide
theorem test_pdeg : said (run1 (withP 2 0x100000000#256) 0x2018) = some (0, 0x20) := by decide
theorem test_pmul_alias : pAt 0 (run1 (withP 0 3) 0x19) = some 5 := by decide +kernel
theorem test_pmul_truncates : pAt 2 (after (execPmul 2 0 1 ((withP 0 (1#256 <<< 200 ||| 1#256)).writeP 1 (1#256 <<< 100)))) =
    some (1#256 <<< 100) := by decide +kernel
theorem test_psqr : pAt 1 (run1 (withP 2 ((1#256 <<< 128) - 1)) 0x211A) =
    some 0x5555555555555555555555555555555555555555555555555555555555555555#256 := by decide +kernel
theorem test_pred : pAt 4 (after (execPred 4 2 3 ((withP 2 (1#256 <<< 255)).writeP 3 cpx))) =
    some 0xA070208A8E583C3026CB3CC08000A018#256 := by decide +kernel
theorem test_pred_zero : said (run1 (withP 0 5) 0x000000000002011B) = some (4, 0) := by decide
theorem test_ppow : pAt 2 (after (execPpow 2 0 2 1 (((withP 0 3).writeP 1 7).writeU 2 5))) = some 2 := by
  decide +kernel

/-! ### Integer unit (section 3.1) -/

theorem test_ufrom32 : uAt 3 (after (execUfrom32 3 0xDEADBEEF (withU 3 (-1)))) = some 0xDEADBEEF := by decide
theorem test_uwl : uAt 1 (run1 State.reset 0x0000FFFF00700121) = some (0xFFFF#128 <<< 112) := by decide
theorem test_uwl_keeps : uAt 1 (after (execUwl 1 0 1 (withU 1 (-1)))) = some (-1 - 0xFFFE#128) := by decide
theorem test_url : said (run1 (withU 2 0xDEADBEEF) 0x0000000000102022) = some (0, 0xDEAD) := by decide
theorem test_umul : uAt 2 (after (execUmul 2 0 1 ((withU 0 0x123456789ABCDEF0FEDCBA9876543210#128).writeU 1
    0x0F1E2D3C4B5A69788796A5B4C3D2E1F0#128))) = some 0xB8A47F4901A93FD55EF9A562300EFF00#128 := by decide
theorem test_umul_alias : uAt 0 (run1 (withU 0 (-1)) 0x23) = some 1 := by decide
theorem test_schoolbook : schoolbookMul 0xFFFFFFFF#128 (-1) = 0xFFFFFFFFFFFFFFFFFFFFFFFF00000001#128 := by decide +kernel

/-! ### String buffer and codec (section 3.3) -/

theorem test_sbwr : (run1 State.reset 0x007F00FF00000030).map (·.sb) = some [(127, 0xFF#8)] := by decide
theorem test_sbwr_zero : (after (execSbwr 0x00020000 (withText "abc"))).map (·.sb) =
    some [(0, 0x61#8), (1, 0x62#8)] := by decide
theorem test_sbrd : said (run1 (withText "8000") 0x31) = some (0, 0x38) := by decide
theorem test_slenw : (run1 State.reset 0x0000008000000032).map (·.slen) = some 128#8 := by decide
theorem test_slenr : said (run1 (withText "8000") 0x33) = some (0, 4) := by decide
theorem test_uparse : uAt 1 (run1 (withText "0123456789abcdefABCDEF") 0x134) = some 0x123456789ABCDEFABCDEF := by
  decide +kernel
theorem test_uparse_error : said (run1 (withText "1g") 0x134) = some (1, 0) ∧
    (run1 (withText "1g") 0x134).map (·.errinfo) = some 1#32 := by decide
theorem test_ufmt : strAt (after (execUfmt 0 (withU 0 (1#128 <<< 127)))) =
    some "80000000000000000000000000000000" := by decide +kernel
theorem test_ufmt_keeps_beyond : (after (execUfmt 0 ((withText "00Ff").writeU 0 0xFF))).map
    (fun t => (t.str, t.sb.read 2, t.sb.read 3)) = some (text "ff", 0x46#8, 0x66#8) := by decide
theorem test_pparse : pAt 7 (run1 (withText "100000000000000000000000000000000") 0x736) = some (1#256 <<< 128) := by
  decide +kernel
theorem test_pparse_error : (run1 (withText " 1") 0x736).map (·.errinfo) = some 0#32 ∧
    said (run1 (withText " 1") 0x736) = some (1, 0) := by decide
theorem test_pfmt : strAt (run1 (withP 2 cpx) 0x2037) = some "100000000008101840085118000000001" := by decide +kernel
theorem test_pfmt_zero : said (run1 State.reset 0x2037) = some (0, 1) ∧ strAt (run1 State.reset 0x2037) = some "0" := by
  decide

/-! ### Jump engine (sections 3.5, 3.6 and PROG3) -/

theorem test_gww : (run1 State.reset 0xFEDCBA9800100040).map (·.gen) = some (0xFEDCBA98#128 <<< 32) := by decide
theorem test_grw : said (run1 (State.reset.writeGen g) 0x0000000000200041) = some (0, 0x89ABCDEF) := by decide
theorem test_arw : said (run1 (State.reset.writeAcc g) 0x0000000000300042) = some (0, 0x01234567) := by decide
theorem test_gstep : (after (gstepWith rot (State.reset.writeGen (1#128 <<< 127)))).map
    (fun t => (t.gen, t.acc, t.stepPort)) = some (1#128, 0#128, [1#128 <<< 127]) := by decide
theorem test_gapply : (after (gapplyWith rot 0 ((withP 0 3).writeGen g))).map (fun t => (t.gen, t.acc, t.stepPort.length)) =
    some (0x0365CFA89AFC56300365CFA89AFC5630#128, 0x0365CFA89AFC56300365CFA89AFC5630#128, 256) := by decide +kernel
theorem test_gapply_top : (after (gapplyWith rot 0 ((withP 0 (1#256 <<< 255)).writeGen g))).map (·.gen) =
    some 0x0091A2B3C4D5E6F7FF6E5D4C3B2A1908#128 := by decide +kernel
theorem test_jcomp : strAt (after (jcompWith rot 3 (withText "55555555555555555555555555555556"))) = some "4" := by
  decide +kernel
theorem test_japply : (after (japplyWith rot ((withText "3").writeGen g))).map (·.acc) =
    some 0x0365CFA89AFC56300365CFA89AFC5630#128 := by decide +kernel
theorem test_jump : (after (jumpWith rot 3 ((withText "5").writeGen g))).map (fun t => (t.gen, t.acc, t.str)) =
    some (0xA2B3C4D5E6F7FF6E5D4C3B2A19080091#128, 0xA2B3C4D5E6F7FF6E5D4C3B2A19080091#128, text "8000") := by
  decide +kernel

/-! ### Reset and the assembler side -/

/-- 70_reset_and_hazards.md R270, R271. -/
theorem test_reset_event : (after (step ((lockedBy 3 8).withInput [.reset, .command 0]))).map
    (fun t => (t.status, t.errinfo, t.input, t.responses)) = some (0, 0, [.command 0], []) := by decide

/-- 30_encoding.md R79, R80. -/
theorem test_asm : asm (.ppow 2 0 2 1) = "PPOW P2, P0, U2, P1" ∧ asm (.sbwr 0x00010042#32) = "SBWR 1, 66" ∧
    asm .gstep = "GSTEP" := by decide

theorem test_sbstr : strAt (after (execAll (Pseudo.sbstr (text "2B")).expand State.reset)) = some "2B" := by decide

/-! ### Witnesses: for every obligation with hypotheses, inputs that meet them, at the boundary of each clause -/

/-- Reset is unlocked: the hypothesis `errcode = 0` of every result statement. -/
theorem witness_unlocked : State.reset.errcode = 0#8 := rfl

theorem witness_StepRunsDecodedCommand :
    (State.reset.withFetchWord 64 0x43).input = .command 0x43#64 :: [] ∧ decode 0x43#64 = .ok .gstep := by decide

/-- Clause 1 with a word that decodes and one that does not, clause 2, clause 3 unlocked and locked. -/
theorem witness_DecodeOrderOfEveryWord :
    ((lockedBy 4 0).withFetchWord 64 0x43).errcode ≠ 0#8 ∧
    (¬ ∃ i, decode 0x43#64 = .ok i ∧ i.isSystem = true) ∧ (¬ ∃ i, decode 0xFF#64 = .ok i ∧ i.isSystem = true) ∧
    (¬ ∃ i, decode 0x100#64 = .ok i) ∧ decode 0x43#64 = .ok .gstep ∧
    decode 0x3#64 = .ok .errclr ∧ Instr.errclr.isSystem = true := by
  refine ⟨by decide, ?_, ?_, ?_, by decide, by decide, rfl⟩
  · rintro ⟨i, h, hs⟩
    have : i = .gstep := by
      have h' : decode 0x43#64 = .ok .gstep := by decide
      rw [h'] at h
      injection h with h
      exact h.symm
    subst this
    cases hs
  · rintro ⟨i, h, _⟩
    have h' : decode 0xFF#64 = .error .reservedOpcode := by decide
    rw [h'] at h
    cases h
  · rintro ⟨i, h⟩
    have h' : decode 0x100#64 = .error .unusedField := by decide
    rw [h'] at h
    cases h

theorem witness_IdleHoldsState : State.reset.input = [] := rfl

theorem witness_ResetEventZeroesState : ((lockedBy 1 5).withInput [.reset]).input = .reset :: [] := rfl

theorem witness_EveryWordGetsOneResponse : (State.reset.withFetchWord 64 0xFF).input = .command 0xFF#64 :: [] := by decide

/-- PARSE (1) and REDZERO (4), the ends of the range of latched codes. -/
theorem witness_FailingWordChangesOnlyTheLatch :
    step ((withText "g").withFetchWord 64 0x134) = .next (failed (withText "g") 1#8 0#32) ∧
    step (State.reset.withFetchWord 64 0x1B) = .next (failed State.reset 4#8 0#32) ∧
    (failed State.reset 4#8 0#32).responses = ⟨4#8, 0#32⟩ :: State.reset.responses :=
  ⟨next_of_after (by decide), next_of_after (by decide), rfl⟩

/-- While locked: a word turned away, ERRCLR, and the reset event. -/
theorem witness_LockLeftOnlyByErrclrOrReset :
    (lockedBy 4 0).errcode ≠ 0#8 ∧
    step ((lockedBy 4 0).withFetchWord 64 0x43) = .next (answered (lockedBy 4 0) 5#8 0#32) ∧
    step ((lockedBy 4 0).withFetchWord 64 0x3) = .next (answered State.reset 0#8 0#32) ∧
    step ((lockedBy 4 0).withInput [.reset]) = .next State.reset :=
  ⟨by decide, next_of_after (by decide), next_of_after (by decide), next_of_after (by decide)⟩

theorem witness_RangeErrors :
    State.reset.errcode = 0#8 ∧ 7 < (8#4).toNat ∧ 7 < (15#4).toNat ∧ 3 < (4#4).toNat ∧
    (0xFFFF#32).toNat < 65536 ∧ (0x008000FF#32).toNat / 256 % 256 = 0 ∧ 128 ≤ (0x008000FF#32).toNat / 65536 ∧
    128 ≤ (128#32).toNat ∧ 128 < (129#32).toNat := by decide

/-- A zero modulus; a JCOMP that ends in an error and one that ends without. -/
theorem witness_RedzeroErrors :
    State.reset.p[(2 : PReg)] = 0#256 ∧ exec (.jcomp 3#32) (withText "g") = .next (failed (withText "g") 1#8 0#32) ∧
    ∃ t, exec (.jump 3#32) State.reset = .next t := ⟨by decide, next_of_after (by decide), _, rfl⟩

/-- An offending first character, and one at the last address the string can reach. -/
theorem witness_ParseErrors :
    firstBad (withText "g0") 0 ∧ firstBad (State.reset.putText (List.replicate 127 0x66#8 ++ [0x67#8])) 127 := by
  unfold firstBad
  decide +kernel

/-- A command that ends without error, and one that is turned away, with their responses. -/
theorem witness_RegistersWrittenOnlyByTheirCommands :
    (∃ t, exec (.jump 3#32) State.reset = .next t ∧ t.responses = ⟨0#8, 0#32⟩ :: State.reset.responses) ∧
    (∃ t, exec (.padd 0 1 2) (lockedBy 4 0) = .next t ∧ t.responses = ⟨5#8, 0#32⟩ :: (lockedBy 4 0).responses) ∧
    (Instr.jump 3#32 ≠ .errclr ∧ Instr.padd 0 1 2 ≠ .errclr) :=
  ⟨⟨_, rfl, rfl⟩, ⟨answered (lockedBy 4 0) 5#8 0#32, next_of_after (by decide), rfl⟩, by decide⟩

/-- A command that steps `T` and ends without error, and one that ends in an error. -/
theorem witness_StepPortTrafficOfEveryCommand :
    (∃ t, exec .gstep State.reset = .next t ∧ t.responses = ⟨0#8, 0#32⟩ :: State.reset.responses) ∧
    (∃ t, exec .japply (withText "g") = .next t ∧ t.responses = ⟨1#8, 0#32⟩ :: (withText "g").responses) :=
  ⟨⟨_, rfl, rfl⟩, ⟨failed (withText "g") 1#8 0#32, next_of_after (by decide), rfl⟩⟩

theorem witness_DecodeOfEncode : (Instr.uwl 3 15#4 0xFFFF#32).wellFormed = true := by decide

theorem witness_EncodeOfDecode : decode 0x000000000012021C#64 = .ok (.ppow 2 0 2 1) := by decide

theorem witness_DecodeOfRowWords : (0xFFFF#32).toNat < 65536 ∧ (0xFFFF00FF#32).toNat / 256 % 256 = 0 := by decide

/-- The first opcode of the first reserved range and the last of the last, in words with other bits set. -/
theorem witness_ReservedOpcodesRaiseIllegal :
    (0xFFFFFFFFFFFFFF04#64).toNat % 256 = 0x04 ∧ (0x00000000000001FF#64).toNat % 256 = 0xFF ∧
    (State.reset.withFetchWord 64 0x1FF).errcode = 0#8 ∧
    (State.reset.withFetchWord 64 0x1FF).input = .command 0x1FF#64 :: [] := by decide

/-- The reset state meets the invariant, and so does a locked state with a full buffer. -/
theorem reset_inv : Inv State.reset := by constructor <;> decide

theorem witness_StepKeepsInvariant : Inv State.reset ∧
    step (State.reset.withFetchWord 64 0x1B) = .next (failed State.reset 4#8 0#32) ∧
    step State.reset = .next State.reset := ⟨reset_inv, next_of_after (by decide), rfl⟩

theorem witness_EveryRunIsSafe : Inv State.reset := reset_inv

/-- The last limb and the first index beyond it. -/
theorem witness_PolynomialLimbAccess : State.reset.errcode = 0#8 ∧ (7#4).toNat ≤ 7 ∧ 7 < (8#4).toNat := by decide

/-- Shift amounts where the two cases meet, at coefficient 255. -/
theorem witness_ShiftsMoveCoefficients :
    (255#32).toNat ≤ 255 ∧ ¬ (256#32).toNat ≤ 255 ∧ 0 + (255#32).toNat ≤ 255 ∧ ¬ 0 + (256#32).toNat ≤ 255 := by decide

/-- Zero, the lowest degree and the highest. -/
theorem witness_PdegFindsHighestCoefficient :
    State.reset.p[(2 : PReg)] = 0#256 ∧
    ((withP 2 1#256).p[(2 : PReg)].getLsbD 0 = true ∧ ∀ j, 0 < j → (withP 2 1#256).p[(2 : PReg)].getLsbD j = false) ∧
    ((withP 2 (1#256 <<< 255)).p[(2 : PReg)].getLsbD 255 = true ∧
      ∀ j, 255 < j → (withP 2 (1#256 <<< 255)).p[(2 : PReg)].getLsbD j = false) := by
  have h1 : (withP 2 1#256).p[(2 : PReg)] = 1#256 := by decide
  refine ⟨by decide, ⟨by decide, fun j hj => ?_⟩, by decide, fun j hj => BitVec.getLsbD_of_ge _ _ (by omega)⟩
  rw [h1, BitVec.getLsbD_one]
  simp; omega

/-- A zero and a nonzero modulus, for PRED (`P2`) and for PPOW (`P2` in `ix`). -/
theorem witness_PredLeavesTheRemainder :
    State.reset.p[(2 : PReg)] = 0#256 ∧ (withP 2 7).p[(2 : PReg)] ≠ 0#256 ∧ (withP 2 7).errcode = 0#8 := by decide

theorem witness_PpowSquaresAndMultiplies :
    State.reset.p[(2 : PReg)] = 0#256 ∧ (withP 2 7).p[(2 : PReg)] ≠ 0#256 ∧ (withP 2 7).errcode = 0#8 := by decide

/-- The ends of the contract: base degree 127, modulus degrees 1 and 128; and an exponent that is not 0. -/
theorem witness_PpowIsTheTruePower :
    pDeg (1#256 <<< 127) ≤ 127 ∧ (2#256 ≠ 0#256 ∧ 1 ≤ pDeg 2#256) ∧ (cpx ≠ 0#256 ∧ pDeg cpx ≤ 128) ∧
    (-1 : U128) ≠ 0#128 := by decide

/-- Both sides of each equivalence, at the boundary. -/
theorem witness_PmulIsTheTrueProduct :
    pDeg (1#256 <<< 127) + pDeg (1#256 <<< 128) ≤ 255 ∧ ¬ pDeg (1#256 <<< 128) + pDeg (1#256 <<< 128) ≤ 255 ∧
    pDeg (1#256 <<< 127) ≤ 127 ∧ ¬ pDeg (1#256 <<< 128) ≤ 127 := by decide

theorem witness_RingLaws : cpx ≠ 0#256 ∧ pDeg cpx + pDeg (1#256 <<< 127) ≤ 255 := by decide

theorem witness_IntegerLimbAccess :
    (0xFFFF#32).toNat < 65536 ∧ 65536 ≤ (0x10000#32).toNat ∧ (7#4).toNat ≤ 7 ∧ 7 < (8#4).toNat := by decide

/-- Addresses 127 and 128 with a byte, and an immediate with a set bit in 15:8. -/
theorem witness_StringBufferAccess :
    (0x007F00FF#32).toNat / 256 % 256 = 0 ∧ (0x007F0100#32).toNat / 256 % 256 ≠ 0 ∧
    (0x007F00FF#32).toNat / 65536 < 128 ∧ (0x00800000#32).toNat / 256 % 256 = 0 ∧
    128 ≤ (0x00800000#32).toNat / 65536 ∧
    (127#32).toNat < 128 ∧ 128 ≤ (128#32).toNat := by decide

theorem witness_StringLengthAccess : (128#32).toNat ≤ 128 ∧ 128 < (129#32).toNat := by decide

/-- The empty string, 128 digits in both cases, and a string that is not all digits. -/
theorem witness_ParseCommandsReadTheNumber :
    allHex State.reset ∧ ¬ allHex (withText "1g") ∧ firstBad (withText "1g") 1 ∧ allHex (State.reset.putText (List.replicate 64 0x66#8 ++ List.replicate 64 0x46#8)) ∧
    (State.reset.putText (List.replicate 64 0x66#8 ++ List.replicate 64 0x46#8)).errcode = 0#8 := by
  unfold allHex firstBad
  decide +kernel

theorem witness_HexRoundTrip : (∃ t, exec (.ufmt 0) State.reset = .next t) ∧ ∃ t, exec (.pfmt 0) State.reset = .next t :=
  ⟨⟨_, rfl⟩, _, rfl⟩

theorem witness_FrontTruncationKeepsTheValue :
    128 < (List.replicate 129 0x66#8).length ∧ ∀ c ∈ List.replicate 129 0x66#8, (digitValue c).isSome := by
  decide +kernel

/-- The string "1", and a buffer that differs from its own at address 1 alone. -/
theorem witness_BytesBeyondTheStringAreNotRead :
    (∀ a < (withText "1").slen.toNat, ((withText "1").sb.write 1 0x67#8).read a = (withText "1").sb.read a) ∧
    (∃ t, exec (.uparse 0) (withText "1") = .next t) ∧ (∃ t, exec (.ufmt 0) (withText "1") = .next t) ∧
    ∃ t, exec (.jump 1#32) (withText "1") = .next t :=
  ⟨by decide, ⟨_, rfl⟩, ⟨_, rfl⟩, ⟨(withText "1").putText (toHex (jumpPoly Config.params 1 1)) |>.applyPoly
    Config.params.step (jumpPoly Config.params 1 1) |>.answer 0#8 0#32, rfl⟩⟩

/-- The last word and the first index beyond it. -/
theorem witness_GeneratorWordAccess : State.reset.errcode = 0#8 ∧ (3#4).toNat ≤ 3 ∧ 3 < (4#4).toNat := by decide

theorem witness_JcompComputesTheJumpPolynomial :
    (withText "1F").errcode = 0#8 ∧ allHex (withText "1F") ∧ stringNumber (withText "1F") = 0x1F ∧
    ¬ allHex (withText "1g") := by
  unfold allHex stringNumber
  decide +kernel

theorem witness_JapplyAppliesTheText :
    (withText "1F").errcode = 0#8 ∧ allHex (withText "1F") ∧ ¬ allHex (withText "g") := by
  unfold allHex
  decide +kernel

theorem witness_JumpStepsTheGenerator :
    (withText "1F").errcode = 0#8 ∧ allHex (withText "1F") ∧ ¬ allHex (withText "g") := by
  unfold allHex
  decide +kernel

/-- The contracts can be met; two congruent polynomials that differ; and the remainder of `x^0`. -/
theorem witness_JumpLaw :
    Config.trivialParams.Contract ∧
    toPoly Config.trivialParams.charpoly ∣ toPoly Config.trivialParams.charpoly - toPoly 0#256 ∧
    toPoly 1#256 = Polynomial.X ^ 0 % toPoly Config.trivialParams.charpoly := by
  have hone : toPoly 1#256 = 1 := by
    ext k
    rw [coeff_toPoly, Polynomial.coeff_one, BitVec.getLsbD_one]
    by_cases h : k = 0 <;> simp [h]
  have hzero : toPoly 0#256 = 0 := by
    ext k
    simp [coeff_toPoly]
  refine ⟨Config.trivialParams_contract, by rw [hzero, sub_zero], ?_⟩
  rw [hone, pow_zero]
  symm
  rw [Polynomial.mod_eq_self_iff]
  · rw [Polynomial.degree_one]
    apply lt_of_lt_of_le (b := ((128 : Nat) : WithBot Nat)) (by decide)
    apply Polynomial.le_degree_of_ne_zero
    rw [coeff_toPoly, Config.trivialParams_coeff]
    decide
  · intro h
    have := congrArg (Polynomial.coeff · 128) h
    simp [coeff_toPoly, Config.trivialParams_coeff] at this

/-- Exponents whose sum is the largest that fits. -/
theorem witness_JumpsCompose : Config.trivialParams.Contract ∧ (-2 : U128).toNat + (1#128).toNat < 2 ^ 128 :=
  ⟨Config.trivialParams_contract, by decide⟩

/-- `CHARPOLY` of degree 128; exponent 0 by the multiplier, and exponent 1. -/
theorem witness_JumpByZeroAndByOne :
    pDeg Config.trivialParams.charpoly = 128 ∧ (withText "1").errcode = 0#8 ∧ allHex (withText "1") ∧
    (0#32).toNat * (stringNumber (withText "1") % 2 ^ 128) % 2 ^ 128 = 0 ∧
    (1#32).toNat * (stringNumber (withText "1") % 2 ^ 128) % 2 ^ 128 = 1 := by
  unfold allHex stringNumber
  decide +kernel

theorem witness_PseudoCommandsDoWhatTheySay : (List.replicate 128 0x66#8).length ≤ 128 := by simp

end Sys2Proof.Tests
end

section
/-! PROOFS. The state (10_state.md): every step keeps the invariant, reset meets it and zeroes the architectural
state, and no command writes outside its row of the table of R20. -/

namespace Sys2Proof.Machine

/-! ### The invariant, part by part -/

/-- What the invariant says of the error latch: a legal `ERRCODE` (R28) and an `ERRINFO` that fits it (R29). -/
structure LatchFits (code : BitVec 8) (info : Data) : Prop where
  codeRange : code.toNat ≤ 4
  clear : code = 0#8 → info = 0#32
  parse : code = 1#8 → info.toNat < 128
  range : code = 3#8 → 4 ≤ info.toNat
  redzero : code = 4#8 → info = 0#32

/-- The invariant speaks of the string buffer, its length and the latch, each on its own. -/
theorem inv_iff {s : State} :
    Inv s ↔ s.sb.wf = true ∧ s.slen.toNat ≤ 128 ∧ LatchFits s.errcode s.errinfo := by
  constructor
  · rintro ⟨hsb, hslen, hcode, hclear, hparse, hrange, hredzero⟩
    exact ⟨hsb, hslen, hcode, hclear, hparse, hrange, hredzero⟩
  · rintro ⟨hsb, hslen, hcode, hclear, hparse, hrange, hredzero⟩
    exact ⟨hsb, hslen, hcode, hclear, hparse, hrange, hredzero⟩

/-- The four errors have four codes (60_exceptions.md R240). -/
theorem err_code_injective : Function.Injective Err.code := fun a b => by
  cases a <;> cases b <;> decide

/-- The latch after ERRCLR and after reset. -/
theorem LatchFits.cleared : LatchFits 0#8 0#32 :=
  ⟨by decide, fun _ => rfl, by decide, by decide, by decide⟩

/-- An error and its information make a legal latch when the information fits the error (R29); the code names the
error, so what is asked of each code is asked of one error. -/
theorem LatchFits.of_err {e : Err} {info : Data} (hp : e = .parse → info.toNat < 128)
    (hr : e = .range → 4 ≤ info.toNat) (hz : e = .redzero → info = 0#32) : LatchFits e.code info where
  codeRange := err_code_le e
  clear h := absurd h (err_code_ne_zero e)
  parse h := hp (err_code_injective (a₂ := .parse) h)
  range h := hr (err_code_injective (a₂ := .range) h)
  redzero h := hz (err_code_injective (a₂ := .redzero) h)

/-- What a command raises is a legal latch: a parse position lies in a string of at most 128 characters. -/
theorem FitsInfo.latchFits {s : State} {e : Err} {info : Data} (hf : FitsInfo s e info) (hs : s.slen.toNat ≤ 128) :
    LatchFits e.code info :=
  .of_err (fun h => Nat.lt_of_lt_of_le (hf.parse h) hs) hf.range hf.redzero

/-! ### What keeps the invariant -/

theorem Inv.answer {s : State} (hs : Inv s) (status : BitVec 8) (data : Data) : Inv (s.answer status data) :=
  { hs with }

theorem Inv.withInput {s : State} (hs : Inv s) (l : List HostInput) : Inv (s.withInput l) :=
  { hs with }

theorem Inv.latch {s : State} (hs : Inv s) {code : BitVec 8} {info : Data} (hl : LatchFits code info) :
    Inv (s.latch code info) :=
  inv_iff.mpr ⟨hs.sbCanonical, hs.slenRange, hl⟩

/-- A command that takes effect keeps the latch, or clears it when it is ERRCLR. -/
theorem Effect.inv {i : Instr} {s u : State} (he : Effect i s u) (hs : Inv s) : Inv u := by
  obtain ⟨hsb, hslen, hlatch⟩ := inv_iff.mp hs
  refine inv_iff.mpr ⟨he.sbWf hsb, he.slenOk hslen, ?_⟩
  by_cases hi : i = .errclr
  · obtain ⟨hcode, hinfo⟩ := he.clearsLatch hi
    rw [hcode, hinfo]
    exact .cleared
  · obtain ⟨hcode, hinfo⟩ := he.keepsLatch hi
    rw [hcode, hinfo]
    exact hlatch

/-- Every command keeps the invariant, however it ends. -/
theorem exec_inv {i : Instr} {s t : State} (hs : Inv s) (h : exec i s = .next t) : Inv t := by
  rcases exec_ends h with ⟨_, _, rfl⟩ | ⟨_, e, info, rfl, hf⟩ | ⟨_, u, d, rfl, he⟩
  · exact hs.answer _ _
  · exact (hs.latch (hf.latchFits hs.slenRange)).answer _ _
  · exact (he.inv hs).answer _ _

/-- A word that is not well-formed keeps the invariant: any `ERRINFO` goes with ILLEGAL (R29). -/
theorem illegal_inv {cw : CmdWord} {s t : State} (hs : Inv s) (h : illegal cw s = .next t) : Inv t := by
  rcases illegal_cases h with ⟨_, rfl⟩ | ⟨_, rfl⟩
  · exact hs.answer _ _
  · exact (hs.latch (.of_err (e := .illegal) nofun nofun nofun)).answer _ _

/-- Settles O21: the empty buffer is canonical, and the latch is clear. -/
theorem resetMeetsInvariant : Obligations.ResetMeetsInvariant :=
  inv_iff.mpr ⟨reset_sb_wf, Nat.zero_le _, .cleared⟩

/-- The reset event leaves the reset state but for the record of the ports, which the invariant does not read. -/
theorem hostReset_inv (s : State) : Inv s.hostReset :=
  { (resetMeetsInvariant : Inv State.reset) with }

/-- Settles O20, by what a step can do: idle, the reset event, a command, or a word that is not well-formed. -/
theorem stepKeepsInvariant : Obligations.StepKeepsInvariant := by
  intro s t hs h
  rcases step_cases h with ⟨_, rfl⟩ | ⟨rest, _, rfl⟩ | ⟨_, rest, i, _, _, hexec⟩ | ⟨cw, rest, _, _, _, hill⟩
  · exact hs
  · exact hostReset_inv _
  · exact exec_inv (hs.withInput rest) hexec
  · exact illegal_inv (hs.withInput rest) hill

/-! ### Reset -/

/-- Settles O22: the registers are copies of zero, and the buffer lists no byte (20_memory.md R56). -/
theorem resetIsAllZero : Obligations.ResetIsAllZero :=
  ⟨fun i => Vector.getElem_replicate i.isLt, fun i => Vector.getElem_replicate i.isLt, rfl, rfl, Memory.read_nil,
    rfl, rfl, rfl⟩

/-! ### What a command leaves alone -/

/-- `STATUS` shows `ERRCODE` and nothing else (R28). -/
theorem status_eq_of_errcode_eq {s t : State} (h : t.errcode = s.errcode) : t.status = s.status := by
  simp only [State.status, h]

/-- The response of a command that fails is neither "no error" nor LOCKED (60_exceptions.md R240). -/
theorem err_code_ne_locked (e : Err) : e.code ≠ lockedStatus := by cases e <;> decide

/-- Settles O12, by the three ways a command can end: turned away it changes nothing, failing it writes the latch
alone and says so in its response, and taking effect it keeps what its row of R20 does not name. -/
theorem registersWrittenOnlyByTheirCommands : Obligations.RegistersWrittenOnlyByTheirCommands := by
  intro i s t h
  rcases exec_ends h with ⟨_, _, rfl⟩ | ⟨_, e, info, rfl, _⟩ | ⟨_, u, d, rfl, he⟩
  · exact ⟨fun _ _ => rfl, fun _ _ => rfl, fun _ => rfl, fun _ => rfl, fun _ => rfl, fun _ => rfl,
      fun _ _ _ _ => ⟨rfl, rfl⟩, rfl⟩
  · refine ⟨fun _ _ => rfl, fun _ _ => rfl, fun _ => rfl, fun _ => rfl, fun _ => rfl, fun _ => rfl, ?_, rfl⟩
    intro r hr _ hstatus
    have hcode : r.status = e.code := congrArg Response.status (List.cons.inj hr).1.symm
    rw [hcode] at hstatus
    rcases hstatus with hok | hlocked
    · exact absurd hok (err_code_ne_zero e)
    · exact absurd hlocked (err_code_ne_locked e)
  · refine ⟨he.keepsP, he.keepsU, he.keepsGen, he.keepsAcc, he.keepsSb, he.keepsSlen, ?_, he.input⟩
    intro _ _ hi _
    obtain ⟨hcode, hinfo⟩ := he.keepsLatch hi
    exact ⟨status_eq_of_errcode_eq hcode, hinfo⟩

end Sys2Proof.Machine
end

section
/-! PROOFS. The string buffer (20_memory.md): what hex text is worth when its front is dropped, and no command reads
beyond the string. -/

namespace Sys2Proof.Machine

/-! ### The number a hex text writes (43_codec.md R171) -/

/-- The model's digit test is the spec's table of digits (R170). -/
theorem hexVal_eq_digitValue (c : Byte) : hexVal c = digitValue c := by
  revert c
  decide +kernel

theorem hexVal_lt {c : Byte} {d : Nat} (h : hexVal c = some d) : d < 16 := by
  unfold hexVal at h
  split_ifs at h <;> cases h <;> omega

/-- The number a text writes in base 16, most significant digit first, at no width; a character that is no digit counts
as 0. -/
def hexNumber (t : Text) : Nat := Nat.ofDigits 16 (t.map fun c => (hexVal c).getD 0).reverse

@[simp] theorem hexNumber_nil : hexNumber [] = 0 := rfl

theorem hexNumber_append (t u : Text) : hexNumber (t ++ u) = hexNumber t * 16 ^ u.length + hexNumber u := by
  simp only [hexNumber, List.map_append, List.reverse_append, Nat.ofDigits_append, List.length_reverse,
    List.length_map]
  ring

theorem hexNumber_singleton {c : Byte} {d : Nat} (h : hexVal c = some d) : hexNumber [c] = d := by
  simp [hexNumber, h]

/-- One turn of the loop of R171 puts a digit behind the number read so far. -/
theorem shiftLeft_four_or_digit {w n d : Nat} (hd : d < 16) :
    BitVec.ofNat w n <<< 4 ||| BitVec.ofNat w d = BitVec.ofNat w (n * 16 + d) := by
  have hor : n * 16 + d = n <<< 4 ||| d := by
    rw [← Nat.shiftLeft_add_eq_or_of_lt (i := 4) hd, Nat.shiftLeft_eq]
  rw [hor, BitVec.ofNat_or]
  congr 1
  apply BitVec.eq_of_toNat_eq
  simp [Nat.shiftLeft_eq]

/-- The loop of R171 from the number `n` on: the digits of the text follow those of `n`, at any width. -/
theorem parseHexFrom_ofNat (w : Nat) {t : Text} (ht : ∀ c ∈ t, (hexVal c).isSome) (k n : Nat) :
    parseHexFrom w k (BitVec.ofNat w n) t = .ok (BitVec.ofNat w (n * 16 ^ t.length + hexNumber t)) := by
  induction t generalizing k n with
  | nil => simp [parseHexFrom]
  | cons c t ih =>
    obtain ⟨d, hd⟩ := Option.isSome_iff_exists.mp (ht c List.mem_cons_self)
    have hcons : hexNumber (c :: t) = d * 16 ^ t.length + hexNumber t := by
      rw [← hexNumber_singleton hd, ← hexNumber_append, List.singleton_append]
    simp only [parseHexFrom, hd]
    rw [shiftLeft_four_or_digit (hexVal_lt hd), ih (fun c hc => ht c (List.mem_cons_of_mem _ hc)), hcons,
      List.length_cons]
    ring_nf

/-- `parse_hex_W` of hex text is the number it writes modulo `2^W` (R171). -/
theorem parseHex_eq_hexNumber (w : Nat) {t : Text} (ht : ∀ c ∈ t, (hexVal c).isSome) :
    parseHex w t = .ok (BitVec.ofNat w (hexNumber t)) := by
  simpa [parseHex] using parseHexFrom_ofNat w ht 0 0

/-! ### Front truncation (R61) -/

/-- Characters in front of digits that already fill the width change nothing: what they add is a multiple of `2^W`. -/
theorem parseHex_append_of_width_le {w : Nat} {t u : Text} (ht : ∀ c ∈ t, (hexVal c).isSome)
    (hu : ∀ c ∈ u, (hexVal c).isSome) (hw : w ≤ 4 * u.length) : parseHex w (t ++ u) = parseHex w u := by
  have hdvd : 2 ^ w ∣ 16 ^ u.length := by
    rw [show 16 = 2 ^ 4 from rfl, ← pow_mul]
    exact pow_dvd_pow 2 hw
  have hmod : (hexNumber t * 16 ^ u.length + hexNumber u) % 2 ^ w = hexNumber u % 2 ^ w := by
    rw [Nat.add_mod, Nat.mod_eq_zero_of_dvd (hdvd.mul_left _), Nat.zero_add, Nat.mod_mod]
  rw [parseHex_eq_hexNumber w (List.forall_mem_append.mpr ⟨ht, hu⟩), parseHex_eq_hexNumber w hu, hexNumber_append]
  exact congrArg Except.ok (BitVec.eq_of_toNat_eq (by simpa only [BitVec.toNat_ofNat] using hmod))

/-- Settles O44: the 128 characters kept are 512 bits, more than either width. -/
theorem frontTruncationKeepsTheValue : Obligations.FrontTruncationKeepsTheValue := by
  intro t hlen ht
  simp only [← hexVal_eq_digitValue] at ht
  have hkept : (t.drop (t.length - 128)).length = 128 := by
    rw [List.length_drop]
    omega
  have htrunc (w : Nat) (hw : w ≤ 512) : parseHex w (t.drop (t.length - 128)) = parseHex w t := by
    conv_rhs => rw [← List.take_append_drop (t.length - 128) t]
    refine (parseHex_append_of_width_le (fun c hc => ht c (List.mem_of_mem_take hc))
      (fun c hc => ht c (List.mem_of_mem_drop hc)) ?_).symm
    rwa [hkept]
  exact ⟨htrunc 128 (by decide), htrunc 256 (by decide)⟩

/-! ### Bytes beyond the string (R60) -/

/-- The buffer `m` holds the string of `s`; beyond it, it may hold anything. -/
def HoldsString (s : State) (m : Memory) : Prop := ∀ a < s.slen.toNat, m.read a = s.sb.read a

/-- What `r` leaves, `r'` leaves too, but for bytes beyond the new string. -/
def SameButBeyond (r r' : Result) : Prop :=
  ∀ t, r = .next t → ∃ m, r' = .next { t with sb := m } ∧ HoldsString t m

section
variable {s : State} {m : Memory}

/-- `STR` is the bytes below `SLEN` (R60). -/
theorem HoldsString.str_eq (h : HoldsString s m) : { s with sb := m }.str = s.str :=
  List.map_congr_left fun a ha => h a (List.mem_range.mp ha)

/-- A new string is held wherever it is written: every byte below the new `SLEN` is one of its characters. -/
theorem holdsString_putText (s : State) (t : Text) (m : Memory) :
    HoldsString (s.putText t) (Memory.writeText 0 t m) := by
  intro a ha
  have hlt : a < t.length := Nat.lt_of_lt_of_le ha (by simpa using Nat.mod_le t.length 256)
  simp [Memory.read_writeText, hlt]

theorem HoldsString.respond (h : HoldsString s m) (d : Data) :
    SameButBeyond (respond d s) (respond d { s with sb := m }) := by
  rintro _ ⟨⟩
  exact ⟨m, rfl, h⟩

theorem HoldsString.raise (h : HoldsString s m) (e : Err) (info : Data) :
    SameButBeyond (raise e info s) (raise e info { s with sb := m }) := by
  rintro _ ⟨⟩
  exact ⟨m, rfl, h⟩

/-- The lock test reads the latch alone. -/
theorem HoldsString.whenUnlocked (h : HoldsString s m) {k k' : Result} (hk : SameButBeyond k k') :
    SameButBeyond (whenUnlocked s k) (whenUnlocked { s with sb := m } k') := by
  intro t ht
  rcases whenUnlocked_cases ht with ⟨hlocked, rfl⟩ | ⟨hunlocked, hnext⟩
  · exact ⟨m, whenUnlocked_locked (s := { s with sb := m }) hlocked k', h⟩
  · rw [whenUnlocked_unlocked (s := { s with sb := m }) hunlocked]
    exact hk t hnext

/-- Parsing reads the string alone, so it ends in the same error or goes on with the same value. -/
theorem HoldsString.withParsed (h : HoldsString s m) {w : Nat} {k k' : BitVec w → Result}
    (hk : ∀ v, SameButBeyond (k v) (k' v)) :
    SameButBeyond (withParsed w s k) (withParsed w { s with sb := m } k') := by
  unfold Machine.withParsed
  rw [h.str_eq]
  cases parseHex w s.str with
  | error pos => exact h.raise _ _
  | ok v => exact hk v

end

/-- Settles O45: a parsing command sees the same string, and a formatting command writes the whole of the new one. -/
theorem bytesBeyondTheStringAreNotRead : Obligations.BytesBeyondTheStringAreNotRead := by
  intro i s t m hi hm hexec
  have h : HoldsString s m := hm
  suffices hsame : SameButBeyond (exec i s) (exec i { s with sb := m }) from hsame t hexec
  -- Writing a register, or `GEN` and `ACC`, leaves the buffer and `SLEN` alone, so `h` holds of the state after it too.
  rcases hi with ⟨r, rfl⟩ | ⟨r, rfl⟩ | ⟨r, rfl⟩ | ⟨r, rfl⟩ | ⟨x, rfl⟩ | rfl | ⟨x, rfl⟩
  · exact h.whenUnlocked (h.withParsed fun v => HoldsString.respond (s := s.writeU r v) h _)
  · exact h.whenUnlocked (h.withParsed fun v => HoldsString.respond (s := s.writeP r v) h _)
  · exact h.whenUnlocked ((holdsString_putText s _ m).respond _)
  · exact h.whenUnlocked ((holdsString_putText s _ m).respond _)
  · exact h.whenUnlocked (h.withParsed fun v => (holdsString_putText s _ m).respond _)
  · exact h.whenUnlocked (h.withParsed fun v => HoldsString.respond (s := s.applyPoly _ v) h _)
  · exact h.whenUnlocked (h.withParsed fun v =>
      HoldsString.respond (s := (s.putText _).applyPoly _ _) (holdsString_putText s _ m) _)

end Sys2Proof.Machine
end

section
/-! PROOFS. The decoder (30_encoding.md R71 to R76): what each check of a word asks, which commands decode from which
fields, and the table of R75 as the decoder's other face. -/

namespace Sys2Proof

/-! ### The checks of a word (R76), each said once -/

/-- A check in sequence with what follows it. -/
@[simp] theorem bind_eq_ok_iff {α : Type} {x : Except Reject α} {k : α → Except Reject Instr} {i : Instr} :
    (x >>= k) = .ok i ↔ ∃ a, x = .ok a ∧ k a = .ok i := by
  cases x <;> simp [bind, Except.bind]

/-- A last check and the command built from what it read. -/
@[simp] theorem map_eq_ok_iff {α : Type} {x : Except Reject α} {k : α → Instr} {i : Instr} :
    (k <$> x) = .ok i ↔ ∃ a, x = .ok a ∧ k a = i := by
  cases x <;> simp [Functor.map, Except.map]

/-- Item 3: every operand field is used by the format or zero. -/
theorem unusedZero_iff {f : Fields} {fmt : Format} :
    f.unusedZero fmt = true ↔
      (fmt.usesRd = true ∨ f.rd = 0#4) ∧ (fmt.usesRa = true ∨ f.ra = 0#4) ∧ (fmt.usesRb = true ∨ f.rb = 0#4) ∧
        (fmt.usesIx = true ∨ f.ix = 0#4) ∧ (fmt.usesImm = true ∨ f.imm = 0#32) := by
  simp [Fields.unusedZero, and_assoc]

/-- Items 2 and 3, then what follows them. -/
@[simp] theorem as_eq_ok_iff {f : Fields} {fmt : Format} {k : Except Reject Instr} {i : Instr} :
    f.as fmt k = .ok i ↔ f.rsv = 0#8 ∧ f.unusedZero fmt = true ∧ k = .ok i := by
  unfold Fields.as
  split_ifs with hrsv hunused <;> simp_all

/-- Item 4 for the `P` file. -/
@[simp] theorem pReg_eq_ok_iff {x : BitVec 4} {r : PReg} : pReg x = .ok r ↔ reg r = x := by
  revert x r; decide

/-- Item 4 for the `U` file. -/
@[simp] theorem uReg_eq_ok_iff {x : BitVec 4} {r : UReg} : uReg x = .ok r ↔ reg r = x := by
  revert x r; decide

/-- Item 5, then what follows it. -/
@[simp] theorem checkImm_eq_ok_iff {ok : Bool} {k : Except Reject Instr} {i : Instr} :
    checkImm ok k = .ok i ↔ ok = true ∧ k = .ok i := by
  cases ok <;> simp [checkImm]

/-! ### What decodes -/

/-- The fields of a well-formed command pass every check of its own arm. -/
theorem decodeFields_fields {i : Instr} (h : i.wellFormed = true) : decodeFields i.fields = .ok i := by
  cases i <;>
    simp_all [decodeFields, Instr.fields, Instr.wellFormed, unusedZero_iff, Format.usesRd, Format.usesRa,
      Format.usesRb, Format.usesIx, Format.usesImm]

/-- In every arm of the decoder the checks leave the fields no other value than the command's own. -/
theorem fields_of_decodeFields {f : Fields} {i : Instr} :
    decodeFields f = .ok i → i.wellFormed = true ∧ i.fields = f := by
  obtain ⟨op, rd, ra, rb, ix, rsv, imm⟩ := f
  unfold decodeFields
  split
  case h_38 => nofun
  all_goals
    next hop =>
    simp only [as_eq_ok_iff, unusedZero_iff, Format.usesRd, Format.usesRa, Format.usesRb, Format.usesIx,
      Format.usesImm, bind_eq_ok_iff, pReg_eq_ok_iff, uReg_eq_ok_iff, checkImm_eq_ok_iff, pure, Except.pure,
      Except.ok.injEq, forall_exists_index, and_imp]
    intros
    subst_vars
    simp_all [Instr.fields, Instr.wellFormed, ← BitVec.toNat_inj (y := op)]

/-- The commands that decode, and from which fields. -/
theorem decodeFields_eq_ok_iff {f : Fields} {i : Instr} :
    decodeFields f = .ok i ↔ i.wellFormed = true ∧ i.fields = f :=
  ⟨fields_of_decodeFields, fun ⟨hwf, hf⟩ => hf ▸ decodeFields_fields hwf⟩

/-- A word decodes to a command exactly when it is that command's word and the command is well-formed. -/
theorem decode_eq_ok_iff {cw : CmdWord} {i : Instr} : decode cw = .ok i ↔ i.wellFormed = true ∧ encode i = cw := by
  have hword : i.fields = fields cw ↔ encode i = cw :=
    ⟨fun h => by rw [encode, h, pack_fields], fun h => by rw [← h, encode, fields_pack]⟩
  rw [decode, decodeFields_eq_ok_iff, hword]

/-- Settles O15: the packing of the command's fields is taken apart again, and they pass every check. -/
theorem decodeOfEncode : Obligations.DecodeOfEncode := fun _ hwf => decode_eq_ok_iff.mpr ⟨hwf, rfl⟩

/-- Settles O16: the decoder leaves no bit of the word unread. -/
theorem encodeOfDecode : Obligations.EncodeOfDecode := fun _ _ h => (decode_eq_ok_iff.mp h).symm

end Sys2Proof
end

section
/-! PROOFS. The opcode table as numbers (30_encoding.md R71, R75, R76): the masks, and the word of every row. -/

namespace Sys2Proof

/-! ### Masks (R75, R76) -/

/-- A 4-bit field whose top bit is masked away to nothing names a `P` register. -/
theorem exists_pReg_iff {x : BitVec 4} : (∃ r : PReg, reg r = x) ↔ x &&& 8#4 = 0#4 := by
  revert x; decide

/-- A 4-bit field whose top two bits are masked away to nothing names a `U` register. -/
theorem exists_uReg_iff {x : BitVec 4} : (∃ r : UReg, reg r = x) ↔ x &&& 12#4 = 0#4 := by
  revert x; decide

/-- A whole operand field kept by the mask. -/
theorem and_mask4 (x : BitVec 4) : x &&& 15#4 = x := BitVec.and_allOnes

/-- A whole immediate kept by the mask. -/
theorem and_mask32 (x : Data) : x &&& 0xFFFFFFFF#32 = x := BitVec.and_allOnes

/-- The converse of `Laws.uwlMask`. -/
theorem uwlImmOk_of_mask {imm : Data} (h : imm &&& 0xFFFF0000#32 = 0#32) : uwlImmOk imm = true := by
  have hbits := congrArg (BitVec.extractLsb' 16 16) h
  rw [BitVec.extractLsb'_and] at hbits
  simpa [uwlImmOk] using (BitVec.and_allOnes (x := imm.extractLsb' 16 16)).symm.trans hbits

/-- The converse of `Laws.sbwrMask`. -/
theorem sbwrImmOk_of_mask {imm : Data} (h : imm &&& 0xFF00#32 = 0#32) : sbwrImmOk imm = true := by
  have hbits := congrArg (BitVec.extractLsb' 8 8) h
  rw [BitVec.extractLsb'_and] at hbits
  simpa [sbwrImmOk] using (BitVec.and_allOnes (x := imm.extractLsb' 8 8)).symm.trans hbits

/-- A row's match word holds its opcode and zeros. -/
theorem fields_matchWord (r : OpcodeRow) : fields r.matchWord = Laws.opOnly r.op := by
  have hpack : r.matchWord = pack (Laws.opOnly r.op) := by
    apply BitVec.eq_of_toNat_eq
    rw [toNat_pack, OpcodeRow.matchWord, BitVec.toNat_setWidth, Nat.mod_eq_of_lt (r.op.isLt.trans (by decide))]
    simp [Laws.opOnly]
  rw [hpack, fields_pack]

/-- A word that fits a row fits it field by field: the converse of `Laws.fits_of_meets`. -/
theorem meets_of_fits {r : OpcodeRow} {cw : CmdWord} (h : r.fits cw = true) :
    Laws.meets (fields cw) (fields r.mask) (Laws.opOnly r.op) := by
  have hand : cw &&& r.mask = r.matchWord := by simpa [OpcodeRow.fits] using h
  have hfields := congrArg fields hand
  rw [← pack_fields cw, ← pack_fields r.mask, pack_and, fields_pack, fields_matchWord] at hfields
  simpa [Laws.meets, Laws.opOnly] using hfields

/-- Fields that fit a row pass every check of that row's arm of the decoder: the mask keeps the unused fields, the top
bits of the register numbers and the immediate bits of item 5. -/
theorem decodeFields_of_meets :
    ∀ r ∈ opcodeTable, ∀ f, Laws.meets f (fields r.mask) (Laws.opOnly r.op) → ∃ i, decodeFields f = .ok i := by
  simp only [opcodeTable, systemRows, polynomialRows, integerRows, codecRows, jumpRows, List.cons_append,
    List.nil_append, List.forall_mem_cons, List.not_mem_nil, IsEmpty.forall_iff, implies_true, and_true]
  and_intros
  all_goals
    rintro ⟨op, rd, ra, rb, ix, rsv, imm⟩
    simp only [Laws.meets, Laws.opOnly, fields, BitVec.reduceExtractLsb', and_mask4, and_mask32, Laws.opMask]
    rintro ⟨rfl, hrd, hra, hrb, hix, hrsv, himm⟩
    simp [decodeFields, unusedZero_iff, Format.usesRd, Format.usesRa, Format.usesRb, Format.usesIx, Format.usesImm,
      exists_pReg_iff, exists_uReg_iff, uwlImmOk_of_mask, sbwrImmOk_of_mask, *]

/-- Every well-formed command's word fits the command's own row. -/
theorem opcodeMask : ∀ i : Instr, Laws.OpcodeMask.Statement i
  | .nop => Laws.OpcodeMask.nop
  | .statrd => Laws.OpcodeMask.statrd
  | .inford => Laws.OpcodeMask.inford
  | .errclr => Laws.OpcodeMask.errclr
  | .pclr rd => Laws.OpcodeMask.pclr rd
  | .pseti rd imm => Laws.OpcodeMask.pseti rd imm
  | .pldc rd => Laws.OpcodeMask.pldc rd
  | .pwl rd ix imm => Laws.OpcodeMask.pwl rd ix imm
  | .prl ra ix => Laws.OpcodeMask.prl ra ix
  | .padd rd ra rb => Laws.OpcodeMask.padd rd ra rb
  | .pshu rd ra imm => Laws.OpcodeMask.pshu rd ra imm
  | .pshd rd ra imm => Laws.OpcodeMask.pshd rd ra imm
  | .pdeg ra => Laws.OpcodeMask.pdeg ra
  | .pmul rd ra rb => Laws.OpcodeMask.pmul rd ra rb
  | .psqr rd ra => Laws.OpcodeMask.psqr rd ra
  | .pred rd ra rb => Laws.OpcodeMask.pred rd ra rb
  | .ppow rd ra rb ix => Laws.OpcodeMask.ppow rd ra rb ix
  | .ufrom32 rd imm => Laws.OpcodeMask.ufrom32 rd imm
  | .uwl rd ix imm => Laws.OpcodeMask.uwl rd ix imm
  | .url ra ix => Laws.OpcodeMask.url ra ix
  | .umul rd ra rb => Laws.OpcodeMask.umul rd ra rb
  | .sbwr imm => Laws.OpcodeMask.sbwr imm
  | .sbrd imm => Laws.OpcodeMask.sbrd imm
  | .slenw imm => Laws.OpcodeMask.slenw imm
  | .slenr => Laws.OpcodeMask.slenr
  | .uparse rd => Laws.OpcodeMask.uparse rd
  | .ufmt ra => Laws.OpcodeMask.ufmt ra
  | .pparse rd => Laws.OpcodeMask.pparse rd
  | .pfmt ra => Laws.OpcodeMask.pfmt ra
  | .gww ix imm => Laws.OpcodeMask.gww ix imm
  | .grw ix => Laws.OpcodeMask.grw ix
  | .arw ix => Laws.OpcodeMask.arw ix
  | .gstep => Laws.OpcodeMask.gstep
  | .gapply ra => Laws.OpcodeMask.gapply ra
  | .jcomp imm => Laws.OpcodeMask.jcomp imm
  | .japply => Laws.OpcodeMask.japply
  | .jump imm => Laws.OpcodeMask.jump imm

/-- The masks decide what decodes (R76, "Equivalently"). -/
theorem decodes_iff_fits {cw : CmdWord} : (∃ i, decode cw = .ok i) ↔ ∃ r ∈ opcodeTable, r.fits cw = true := by
  constructor
  · rintro ⟨i, hi⟩
    obtain ⟨hwf, rfl⟩ := decode_eq_ok_iff.mp hi
    obtain ⟨r, hr, _, hfits⟩ := opcodeMask i hwf
    exact ⟨r, hr, hfits⟩
  · rintro ⟨r, hr, hfits⟩
    exact decodeFields_of_meets r hr _ (meets_of_fits hfits)

/-- Settles O14: a row's match word is its opcode as a number. -/
theorem decodeAgreesWithMasks : Obligations.DecodeAgreesWithMasks := by
  intro cw
  simp only [decodes_iff_fits, OpcodeRow.fits, OpcodeRow.matchWord, beq_iff_eq, BitVec.ofNat_toNat]

/-! ### The word of every row (R71, R75) -/

/-- A register number in its field is its own number. -/
@[simp] theorem toNat_pReg (r : PReg) : (reg r).toNat = r.val := by revert r; decide

@[simp] theorem toNat_uReg (r : UReg) : (reg r).toNat = r.val := by revert r; decide

/-- Item 5 for UWL, in numbers. -/
theorem uwlImmOk_iff {imm : Data} : uwlImmOk imm = true ↔ imm.toNat < 65536 := by
  have himm := imm.isLt
  rw [uwlImmOk, beq_iff_eq, ← BitVec.toNat_inj, BitVec.extractLsb'_toNat, Nat.shiftRight_eq_div_pow,
    BitVec.toNat_ofNat]
  omega

/-- Item 5 for SBWR, in numbers. -/
theorem sbwrImmOk_iff {imm : Data} : sbwrImmOk imm = true ↔ imm.toNat / 256 % 256 = 0 := by
  rw [sbwrImmOk, beq_iff_eq, ← BitVec.toNat_inj, BitVec.extractLsb'_toNat, Nat.shiftRight_eq_div_pow,
    BitVec.toNat_ofNat]

/-- No command sets the reserved field. -/
theorem rsv_fields (i : Instr) : i.fields.rsv = 0#8 := by cases i <;> rfl

/-- The word of a command is the number its fields make (R71). -/
theorem encode_eq_word (i : Instr) :
    encode i = Machine.word i.fields.op.toNat i.fields.rd.toNat i.fields.ra.toNat i.fields.rb.toNat i.fields.ix.toNat
      i.fields.imm.toNat := by
  have hnum := toNat_pack i.fields
  rw [rsv_fields, BitVec.toNat_ofNat, Nat.zero_mod, Nat.zero_mul, Nat.add_zero] at hnum
  rw [Machine.word, ← hnum, BitVec.ofNat_toNat, BitVec.setWidth_eq, encode]

/-- The number the fields of a well-formed command make decodes to it. -/
theorem decode_word {i : Instr} (h : i.wellFormed = true) :
    decode (Machine.word i.fields.op.toNat i.fields.rd.toNat i.fields.ra.toNat i.fields.rb.toNat i.fields.ix.toNat
      i.fields.imm.toNat) = .ok i :=
  encode_eq_word i ▸ decodeOfEncode i h

/-- Settles O17: an operand is its field read as a number, so each row is `decode_word` of its command. -/
theorem decodeOfRowWords : Obligations.DecodeOfRowWords := by
  refine ⟨?_, fun d a b m e j imm => ?_, fun d a b j imm => ?_, fun d a pd pa imm => ?_, fun a j imm => ?_⟩
  · exact ⟨decode_word (i := .nop) rfl, decode_word (i := .statrd) rfl, decode_word (i := .inford) rfl,
      decode_word (i := .errclr) rfl⟩
  · simp only [← toNat_pReg, ← toNat_uReg]
    exact ⟨decode_word (i := .pclr d) rfl, decode_word (i := .pseti d imm) rfl, decode_word (i := .pldc d) rfl,
      decode_word (i := .pwl d j imm) rfl, decode_word (i := .prl a j) rfl, decode_word (i := .padd d a b) rfl,
      decode_word (i := .pshu d a imm) rfl, decode_word (i := .pshd d a imm) rfl, decode_word (i := .pdeg a) rfl,
      decode_word (i := .pmul d a b) rfl, decode_word (i := .psqr d a) rfl, decode_word (i := .pred d a b) rfl,
      decode_word (i := .ppow d a e m) rfl⟩
  · simp only [← toNat_uReg]
    exact ⟨decode_word (i := .ufrom32 d imm) rfl, fun h => decode_word (i := .uwl d j imm) (uwlImmOk_iff.mpr h),
      decode_word (i := .url a j) rfl, decode_word (i := .umul d a b) rfl⟩
  · simp only [← toNat_pReg, ← toNat_uReg]
    exact ⟨fun h => decode_word (i := .sbwr imm) (sbwrImmOk_iff.mpr h), decode_word (i := .sbrd imm) rfl,
      decode_word (i := .slenw imm) rfl, decode_word (i := .slenr) rfl, decode_word (i := .uparse d) rfl,
      decode_word (i := .ufmt a) rfl, decode_word (i := .pparse pd) rfl, decode_word (i := .pfmt pa) rfl⟩
  · simp only [← toNat_pReg]
    exact ⟨decode_word (i := .gww j imm) rfl, decode_word (i := .grw j) rfl, decode_word (i := .arw j) rfl,
      decode_word (i := .gstep) rfl, decode_word (i := .gapply a) rfl, decode_word (i := .jcomp imm) rfl,
      decode_word (i := .japply) rfl, decode_word (i := .jump imm) rfl⟩

end Sys2Proof
end

section
/-! PROOFS. What a step does with a word (30_encoding.md R74, R77, R81): the decode order, the one response, the
reserved opcodes, and that nothing stops XJE. -/

namespace Sys2Proof.Machine

/-! ### A step on a word (R81) -/

/-- The step takes the word from the host and issues it. -/
theorem step_command {s : State} {cw : CmdWord} {rest : List HostInput} (h : s.input = .command cw :: rest) :
    step s = issue cw (s.withInput rest) := by
  simp only [step, h]

theorem issue_of_ok {cw : CmdWord} {i : Instr} (h : decode cw = .ok i) (s : State) : issue cw s = exec i s := by
  simp only [issue, h]

theorem issue_of_error {cw : CmdWord} {e : Reject} (h : decode cw = .error e) (s : State) :
    issue cw s = illegal cw s := by
  simp only [issue, h]

/-- Settles O1. -/
theorem stepRunsDecodedCommand : Obligations.StepRunsDecodedCommand := by
  intro s cw rest i hinput hdecode
  rw [step_command hinput, issue_of_ok hdecode]
  rfl

/-! ### Nothing stops XJE (R77; 60_exceptions.md R248) -/

/-- The outcome is a next state. -/
def Answers (r : Result) : Prop := ∃ t, r = .next t

theorem Answers.respond (d : Data) (s : State) : Answers (respond d s) := ⟨_, rfl⟩

theorem Answers.raise (e : Err) (info : Data) (s : State) : Answers (raise e info s) := ⟨_, rfl⟩

theorem Answers.ite {c : Prop} [Decidable c] {k k' : Result} (h : Answers k) (h' : Answers k') :
    Answers (if c then k else k') := by
  split
  · exact h
  · exact h'

theorem Answers.whenUnlocked {s : State} {k : Result} (h : Answers k) : Answers (whenUnlocked s k) :=
  .ite ⟨_, rfl⟩ h

theorem Answers.checkIndex {max : Nat} {ix : Index} {s : State} {k : Result} (h : Answers k) :
    Answers (checkIndex max ix s k) :=
  .ite (.raise _ _ _) h

theorem Answers.withParsed {w : Nat} {s : State} {k : BitVec w → Result} (h : ∀ v, Answers (k v)) :
    Answers (withParsed w s k) := by
  unfold Machine.withParsed
  split
  · exact .raise _ _ _
  · exact h _

/-- Every command answers a next state, by the shape of its meaning. -/
theorem exec_answers (i : Instr) (s : State) : Answers (exec i s) := by
  cases i with
  | nop | statrd | inford | errclr => exact .respond _ _
  | pclr | pseti | pldc | padd | pshu | pshd | pdeg | pmul | psqr | ufrom32 | umul | slenr | ufmt | pfmt | gstep
  | gapply => exact .whenUnlocked (.respond _ _)
  | pwl | prl | uwl | url | gww | grw | arw => exact .whenUnlocked (.checkIndex (.respond _ _))
  | pred | ppow | sbwr | sbrd | slenw => exact .whenUnlocked (.ite (.raise _ _ _) (.respond _ _))
  | uparse | pparse | jcomp | japply | jump => exact .whenUnlocked (.withParsed fun _ => .respond _ _)

theorem illegal_answers (cw : CmdWord) (s : State) : Answers (illegal cw s) := .whenUnlocked (.raise _ _ _)

theorem issue_answers (cw : CmdWord) (s : State) : Answers (issue cw s) := by
  cases h : decode cw with
  | ok i => exact issue_of_ok h s ▸ exec_answers i s
  | error e => exact issue_of_error h s ▸ illegal_answers cw s

/-- Settles O5: idle, the reset event, or a word. -/
theorem stepAlwaysAnswersNext : Obligations.StepAlwaysAnswersNext := by
  intro s
  match h : s.input with
  | [] => exact ⟨s, by simp only [step, h]⟩
  | .reset :: rest => exact ⟨(s.withInput rest).hostReset, by simp only [step, h]⟩
  | .command cw :: rest => exact step_command h ▸ issue_answers cw _

/-! ### The decode order (R81) -/

/-- The low half of a word, as a number (60_exceptions.md R242). -/
theorem lowHalf_eq (cw : CmdWord) : cw.extractLsb' 0 32 = BitVec.ofNat 32 (cw.toNat % 2 ^ 32) := by
  apply BitVec.eq_of_toNat_eq
  simp

/-- A command that is no system command is turned away while XJE is locked (60_exceptions.md R245). -/
theorem exec_locked {i : Instr} {s : State} (hi : i.isSystem = false) (hs : s.errcode ≠ 0#8) :
    exec i s = .next (s.answer lockedStatus 0#32) := by
  obtain ⟨t, ht⟩ := exec_answers i s
  rcases exec_ends ht with ⟨_, _, rfl⟩ | ⟨hunlocked, _⟩ | ⟨hunlocked | hsystem, _⟩
  · exact ht
  · exact absurd hunlocked hs
  · exact absurd hunlocked hs
  · rw [hi] at hsystem
    cases hsystem

/-- LOCKED: any word but a system command's (R81, first case). -/
theorem issue_locked {cw : CmdWord} {s : State} (hs : s.errcode ≠ 0#8)
    (hnot : ¬ ∃ i, decode cw = .ok i ∧ i.isSystem = true) : issue cw s = .next (answered s 5#8 0#32) := by
  cases hdecode : decode cw with
  | ok i =>
    have hi : i.isSystem = false := Bool.eq_false_iff.mpr fun hsystem => hnot ⟨i, hdecode, hsystem⟩
    rw [issue_of_ok hdecode, exec_locked hi hs]
    rfl
  | error e =>
    rw [issue_of_error hdecode]
    exact whenUnlocked_locked hs _

/-- ILLEGAL: a word that is not well-formed, while XJE is unlocked (R81, second case). -/
theorem issue_illegal {cw : CmdWord} {s : State} (hs : s.errcode = 0#8) (hnot : ¬ ∃ i, decode cw = .ok i) :
    issue cw s = .next (failed s 2#8 (BitVec.ofNat 32 (cw.toNat % 2 ^ 32))) := by
  cases hdecode : decode cw with
  | ok i => exact absurd ⟨i, hdecode⟩ hnot
  | error e =>
    rw [issue_of_error hdecode, illegal, whenUnlocked_unlocked hs, lowHalf_eq]
    rfl

/-- Settles O2, case by case. -/
theorem decodeOrderOfEveryWord : Obligations.DecodeOrderOfEveryWord := by
  intro s cw rest hinput
  refine ⟨fun hs hnot => ?_, fun hs hnot => ?_, fun i hi _ => stepRunsDecodedCommand s cw rest i hinput hi⟩
  · exact (step_command hinput).trans (issue_locked (s := s.withInput rest) hs hnot)
  · exact (step_command hinput).trans (issue_illegal (s := s.withInput rest) hs hnot)

/-! ### One response (R74) -/

/-- The response of a word that failed or was turned away carries no data, and every status is a code of
60_exceptions.md R240. -/
structure ResponseFits (r : Response) : Prop where
  status : r.status.toNat ≤ 5
  data : r.status ≠ 0#8 → r.data = 0#32

theorem ResponseFits.ok (d : Data) : ResponseFits ⟨okStatus, d⟩ := ⟨Nat.zero_le _, fun h => absurd rfl h⟩

theorem ResponseFits.locked : ResponseFits ⟨lockedStatus, 0#32⟩ := ⟨by decide, fun _ => rfl⟩

theorem ResponseFits.err (e : Err) : ResponseFits ⟨e.code, 0#32⟩ :=
  ⟨Nat.le_succ_of_le (err_code_le e), fun _ => rfl⟩

/-- The word is answered: one response more, and the host's other inputs left as they were. -/
def AnsweredOnce (s t : State) : Prop :=
  t.input = s.input ∧ ∃ r, t.responses = r :: s.responses ∧ ResponseFits r

theorem exec_answeredOnce {i : Instr} {s t : State} (h : exec i s = .next t) : AnsweredOnce s t := by
  rcases exec_ends h with ⟨_, _, rfl⟩ | ⟨_, e, info, rfl, _⟩ | ⟨_, u, d, rfl, he⟩
  · exact ⟨rfl, _, rfl, .locked⟩
  · exact ⟨rfl, _, rfl, .err e⟩
  · exact ⟨he.input, _, congrArg (_ :: ·) he.responses, .ok d⟩

theorem illegal_answeredOnce {cw : CmdWord} {s t : State} (h : illegal cw s = .next t) : AnsweredOnce s t := by
  rcases illegal_cases h with ⟨_, rfl⟩ | ⟨_, rfl⟩
  · exact ⟨rfl, _, rfl, .locked⟩
  · exact ⟨rfl, _, rfl, .err .illegal⟩

theorem issue_answeredOnce {cw : CmdWord} {s t : State} (h : issue cw s = .next t) : AnsweredOnce s t := by
  cases hd : decode cw with
  | ok i => exact exec_answeredOnce (issue_of_ok hd s ▸ h)
  | error e => exact illegal_answeredOnce (issue_of_error hd s ▸ h)

/-- Settles O6. -/
theorem everyWordGetsOneResponse : Obligations.EveryWordGetsOneResponse := by
  intro s cw rest hinput
  obtain ⟨t, ht⟩ := issue_answers cw (s.withInput rest)
  obtain ⟨htaken, r, hr, hfits⟩ := issue_answeredOnce ht
  exact ⟨t, r, (step_command hinput).trans ht, htaken, hr, hfits.status, hfits.data⟩

/-! ### Reserved opcodes (R77) -/

/-- The opcode is the word's low byte (R71). -/
theorem toNat_op_fields (cw : CmdWord) : (fields cw).op.toNat = cw.toNat % 256 := by
  simp [fields]

/-- Settles O19: no arm of the decoder has a reserved opcode. -/
theorem reservedOpcodesRaiseIllegal : Obligations.ReservedOpcodesRaiseIllegal := by
  refine ⟨by decide +kernel, fun s cw rest op hop hreserved hunlocked hinput => ?_⟩
  have hdecode : decode cw = .error .reservedOpcode := by
    rw [← toNat_op_fields] at hop
    unfold decode decodeFields
    split
    case h_38 => rfl
    all_goals omega
  have hnot : ¬ ∃ i, decode cw = .ok i := by
    rintro ⟨i, hi⟩
    rw [hdecode] at hi
    cases hi
  exact ⟨hdecode, (step_command hinput).trans (issue_illegal (s := s.withInput rest) hunlocked hnot)⟩

end Sys2Proof.Machine
end

section
/-! PROOFS. The pseudo-commands (30_encoding.md R80): each command of an expansion runs without error. -/

namespace Sys2Proof.Machine

/-- A command that answers is followed by the others (20_memory.md R57). -/
theorem execAll_cons {i : Instr} {s t : State} (h : exec i s = .next t) (l : List Instr) :
    execAll (i :: l) s = execAll l t := by
  simp only [execAll, h]

/-- One command runs as itself. -/
theorem execAll_singleton {i : Instr} {s t : State} (h : exec i s = .next t) : execAll [i] s = .next t :=
  execAll_cons h []

/-- PSETI while unlocked (42_gf2poly.md R142). -/
theorem exec_pseti {s : State} (hs : s.errcode = 0#8) (rd : PReg) (imm : Data) :
    exec (.pseti rd imm) s =
      .next { s with p := s.p.set rd (imm.setWidth 256), responses := ⟨0#8, 0#32⟩ :: s.responses } :=
  whenUnlocked_unlocked hs _

/-- PSHU while unlocked (42_gf2poly.md R147). -/
theorem exec_pshu {s : State} (hs : s.errcode = 0#8) (rd ra : PReg) (imm : Data) :
    exec (.pshu rd ra imm) s =
      .next { s with p := s.p.set rd (pShu s.p[ra] imm.toNat), responses := ⟨0#8, 0#32⟩ :: s.responses } :=
  whenUnlocked_unlocked hs _

/-- Multiplication by `x^0`. -/
theorem pShu_zero (x : Poly) : pShu x 0 = x := by
  simp [pShu]

/-- SBWR while unlocked, on an address of the buffer (43_codec.md R174). -/
theorem exec_sbwr {s : State} (hs : s.errcode = 0#8) {imm : Data} (ha : (immAddr imm).toNat < sbBytes) :
    exec (.sbwr imm) s = .next ((s.writeByte (immAddr imm).toNat (immByte imm)).answer okStatus 0#32) := by
  refine (whenUnlocked_unlocked hs _).trans ?_
  rw [if_neg (Nat.not_le.mpr ha), respond_next]

/-- SLENW while unlocked, with a length that fits the buffer (43_codec.md R176). -/
theorem exec_slenw {s : State} (hs : s.errcode = 0#8) {imm : Data} (hn : imm.toNat ≤ sbBytes) :
    exec (.slenw imm) s = .next ((s.writeSlen (imm.setWidth 8)).answer okStatus 0#32) := by
  refine (whenUnlocked_unlocked hs _).trans ?_
  rw [if_neg (Nat.not_lt.mpr hn), respond_next]

/-- The address of the immediate that `storeText` builds (R73). -/
theorem immAddr_append (a : BitVec 16) (z c : BitVec 8) : immAddr (a ++ z ++ c) = a :=
  (BitVec.extractLsb'_append_eq_of_le (by decide)).trans BitVec.extractLsb'_append_eq_left

/-- The byte of the immediate that `storeText` builds (R73). -/
theorem immByte_append (a : BitVec 16) (z c : BitVec 8) : immByte (a ++ z ++ c) = c :=
  BitVec.extractLsb'_append_eq_right

/-- Storing a text that fits the buffer: its bytes are written one after another, each answered `(0, 0)`. -/
theorem execAll_storeText {t : Text} (l : List Instr) {a : Nat} {s : State} (hs : s.errcode = 0#8)
    (ht : a + t.length ≤ sbBytes) :
    execAll (storeText a t ++ l) s =
      execAll l { s with
        sb := Memory.writeText a t s.sb
        responses := List.replicate t.length ⟨0#8, 0#32⟩ ++ s.responses } := by
  induction t generalizing a s with
  | nil => rfl
  | cons c t ih =>
    rw [List.length_cons] at ht
    have hbytes : sbBytes = 128 := rfl
    have haddr : (BitVec.ofNat 16 a).toNat = a := Nat.mod_eq_of_lt (by omega)
    have hexec := exec_sbwr hs (imm := BitVec.ofNat 16 a ++ 0#8 ++ c) (by rw [immAddr_append, haddr]; omega)
    rw [immAddr_append, immByte_append, haddr] at hexec
    rw [storeText, List.cons_append, execAll_cons hexec, ih (s := (s.writeByte a c).answer _ _) hs (by omega)]
    simp [Memory.writeText, List.replicate_succ', okStatus, State.answer, State.writeByte]

/-- Settles O56. -/
theorem pseudoCommandsDoWhatTheySay : Obligations.PseudoCommandsDoWhatTheySay := by
  intro s hs
  refine ⟨fun rd => ⟨?_, ?_⟩, fun rd ra => ?_, fun t ht => ?_⟩
  · exact execAll_singleton (exec_pseti hs rd 1#32)
  · exact execAll_singleton (exec_pseti hs rd 2#32)
  · rw [← pShu_zero s.p[ra]]
    exact execAll_singleton (exec_pshu hs rd ra 0#32)
  · have hn : (BitVec.ofNat 32 t.length).toNat = t.length := Nat.mod_eq_of_lt (by omega)
    refine ⟨Memory.writeText 0 t s.sb, ?_, fun a => ?_⟩
    · refine (execAll_storeText _ hs (by rwa [Nat.zero_add])).trans ((execAll_singleton (exec_slenw ?_ ?_)).trans ?_)
      · exact hs
      · rwa [hn]
      · rw [BitVec.setWidth_ofNat_of_le (by decide)]
        rfl
    · rw [Memory.read_writeText]
      by_cases ha : a < t.length <;> simp [ha]

end Sys2Proof.Machine
end

section
/-! PROOFS. The system commands (40_system.md): what they do, locked or not, and that of the words only ERRCLR leaves
the locked state. -/

namespace Sys2Proof.Machine

/-! ### The way out of the locked state (R103; 60_exceptions.md R249, R250) -/

/-- `ERRCODE` and `ERRINFO` hold what they held. -/
def KeepsLatch (s t : State) : Prop := t.errcode = s.errcode ∧ t.errinfo = s.errinfo

/-- While XJE is locked no command but ERRCLR changes the latch: it is turned away, or it is another system command
and takes effect. -/
theorem exec_keepsLatch {i : Instr} {s t : State} (hs : s.errcode ≠ 0#8) (hi : i ≠ .errclr)
    (h : exec i s = .next t) : KeepsLatch s t := by
  rcases exec_ends h with ⟨_, _, rfl⟩ | ⟨hunlocked, _⟩ | ⟨_, u, d, rfl, he⟩
  · exact ⟨rfl, rfl⟩
  · exact absurd hunlocked hs
  · exact he.keepsLatch hi

/-- While XJE is locked a word that is not well-formed latches nothing (60_exceptions.md R245). -/
theorem illegal_keepsLatch {cw : CmdWord} {s t : State} (hs : s.errcode ≠ 0#8) (h : illegal cw s = .next t) :
    KeepsLatch s t := by
  rcases illegal_cases h with ⟨_, rfl⟩ | ⟨hunlocked, _⟩
  · exact ⟨rfl, rfl⟩
  · exact absurd hunlocked hs

/-- ERRCLR has one word (R103). -/
theorem eq_three_of_decode_errclr {cw : CmdWord} (h : decode cw = .ok .errclr) : cw = 3#64 :=
  (encodeOfDecode cw .errclr h).left.symm

/-- Settles O8, by what a step can do: idle, the reset event, a command, or a word that is not well-formed. -/
theorem lockLeftOnlyByErrclrOrReset : Obligations.LockLeftOnlyByErrclrOrReset := by
  intro s t hs h
  rcases step_cases h with
    ⟨_, rfl⟩ | ⟨rest, hinput, _⟩ | ⟨cw, rest, i, hinput, hdecode, hexec⟩ | ⟨cw, rest, _, _, _, hill⟩
  · exact .inl ⟨rfl, rfl⟩
  · exact .inr (.inr ⟨rest, hinput⟩)
  · by_cases hi : i = .errclr
    · subst hi
      exact .inr (.inl ⟨rest, eq_three_of_decode_errclr hdecode ▸ hinput⟩)
    · exact .inl (exec_keepsLatch (s := s.withInput rest) hs hi hexec)
  · exact .inl (illegal_keepsLatch (s := s.withInput rest) hs hill)

/-! ### The four commands (R100 to R103) -/

/-- STATRD's data is `ERRCODE` zero-extended (R101; 10_state.md R28). -/
theorem toNat_status (s : State) : s.status.toNat = s.errcode.toNat :=
  BitVec.toNat_setWidth_of_le (by decide)

/-- Settles O24: each word is its command's encoding, and no system command has a lock test before its effect. -/
theorem systemCommands : Obligations.SystemCommands :=
  ⟨decodeOfEncode .nop rfl, decodeOfEncode .statrd rfl, decodeOfEncode .inford rfl, decodeOfEncode .errclr rfl,
    fun s => ⟨respond_next _ _, ⟨s.status, toNat_status s, respond_next _ _⟩, respond_next _ _, respond_next _ _⟩⟩

end Sys2Proof.Machine
end

section
/-! PROOFS. The schoolbook limb multiply (41_biguint128.md R111): what each loop adds to the number the result limbs
write. A list of limbs is read as a number by Mathlib's `Nat.ofDigits`; no bound on the limbs is needed. -/

namespace Sys2Proof.Machine

/-! ### Limbs as a number (10_state.md R24) -/

/-- The eight limbs of an integer write it. -/
theorem ofDigits_uintLimbs (v : U128) : Nat.ofDigits 65536 (uintLimbs v) = v.toNat := by
  have hv := v.isLt
  simp only [uintLimbs, List.range, List.range.loop, List.map, BitVec.extractLsb'_toNat, Nat.shiftRight_eq_div_pow,
    Nat.ofDigits_cons, Nat.ofDigits_nil]
  omega

/-- Putting limbs together is reading them as a number, modulo `2^128`. -/
theorem toNat_ofUintLimbs (l : List Nat) : (ofUintLimbs l).toNat = Nat.ofDigits 65536 l % 2 ^ 128 := by
  rw [ofUintLimbs, BitVec.toNat_ofNat, Nat.ofDigits_eq_foldr]
  rfl

/-- Exchanging the limb at `k` for `x`. -/
theorem ofDigits_set (b x : Nat) {l : List Nat} {k : Nat} (hk : k < l.length) :
    Nat.ofDigits b (l.set k x) + l.getD k 0 * b ^ k = Nat.ofDigits b l + x * b ^ k := by
  induction l generalizing k with
  | nil => cases hk
  | cons y l ih =>
    cases k with
    | zero =>
      simp only [List.set_cons_zero, List.getD_cons_zero, Nat.ofDigits_cons]
      ring
    | succ k =>
      have hrest := ih (Nat.lt_of_succ_lt_succ hk)
      simp only [List.set_cons_succ, List.getD_cons_succ, Nat.ofDigits_cons]
      linear_combination b * hrest

/-- One limb more; beyond the end of the list it counts as 0. -/
theorem ofDigits_take_succ (b : Nat) (l : List Nat) (n : Nat) :
    Nat.ofDigits b (l.take (n + 1)) = Nat.ofDigits b (l.take n) + l.getD n 0 * b ^ n := by
  induction l generalizing n with
  | nil => simp
  | cons y l ih =>
    cases n with
    | zero => simp
    | succ n =>
      simp only [List.take_succ_cons, List.getD_cons_succ, Nat.ofDigits_cons, ih n]
      ring

/-- Dropping the limbs from `n` on drops a multiple of `b ^ n`. -/
theorem ofDigits_take_modEq (b : Nat) (l : List Nat) (n : Nat) :
    Nat.ofDigits b (l.take n) ≡ Nat.ofDigits b l [MOD b ^ n] := by
  induction n generalizing l with
  | zero => exact Nat.modEq_one
  | succ n ih =>
    cases l with
    | nil => rfl
    | cons y l =>
      rw [List.take_succ_cons, Nat.ofDigits_cons, Nat.ofDigits_cons, Nat.pow_succ']
      exact (ih l).mul_left' b |>.add_left y

/-! ### The inner loop -/

theorem schoolbookCell_length (ai : Nat) (b : List Nat) (i : Nat) (rc : List Nat × Nat) (j : Nat) :
    (schoolbookCell ai b i rc j).1.length = rc.1.length := by
  simp [schoolbookCell]

/-- One cell adds `A[i] * B[j]` at position `i + j`: the carry moves on one position, and nothing is lost. -/
theorem schoolbookCell_value (ai : Nat) (b : List Nat) {i j : Nat} {rc : List Nat × Nat}
    (h : i + j < rc.1.length) :
    Nat.ofDigits 65536 (schoolbookCell ai b i rc j).1 + (schoolbookCell ai b i rc j).2 * 65536 ^ (i + (j + 1)) =
      Nat.ofDigits 65536 rc.1 + rc.2 * 65536 ^ (i + j) + ai * b.getD j 0 * 65536 ^ (i + j) := by
  obtain ⟨r, carry⟩ := rc
  have hset := ofDigits_set 65536 ((r.getD (i + j) 0 + ai * b.getD j 0 + carry) % 65536) h
  have hsplit := Nat.mod_add_div (r.getD (i + j) 0 + ai * b.getD j 0 + carry) 65536
  simp only [schoolbookCell]
  linear_combination hset + 65536 ^ (i + j) * hsplit

/-- The inner loop run for the limbs `0..n-1` of `b`: the result limbs and the carry. -/
def schoolbookCells (ai : Nat) (b r : List Nat) (i n : Nat) : List Nat × Nat :=
  (List.range n).foldl (schoolbookCell ai b i) (r, 0)

theorem schoolbookCells_succ (ai : Nat) (b r : List Nat) (i n : Nat) :
    schoolbookCells ai b r i (n + 1) = schoolbookCell ai b i (schoolbookCells ai b r i n) n := by
  rw [schoolbookCells, List.range_succ, List.foldl_concat, schoolbookCells]

theorem schoolbookRow_eq (a b r : List Nat) (i : Nat) :
    schoolbookRow a b r i = (schoolbookCells (a.getD i 0) b r i (8 - i)).1 := rfl

@[simp] theorem schoolbookCells_length (ai : Nat) (b r : List Nat) (i n : Nat) :
    (schoolbookCells ai b r i n).1.length = r.length := by
  induction n with
  | zero => rfl
  | succ n ih => rw [schoolbookCells_succ, schoolbookCell_length, ih]

/-- `n` cells add `A[i]` times the low `n` limbs of `b`, at position `i`, exactly. -/
theorem schoolbookCells_value (ai : Nat) (b : List Nat) {r : List Nat} {i n : Nat} (h : i + n ≤ r.length) :
    Nat.ofDigits 65536 (schoolbookCells ai b r i n).1 + (schoolbookCells ai b r i n).2 * 65536 ^ (i + n) =
      Nat.ofDigits 65536 r + ai * 65536 ^ i * Nat.ofDigits 65536 (b.take n) := by
  induction n with
  | zero => simp [schoolbookCells]
  | succ n ih =>
    have hcell := schoolbookCell_value ai b (i := i) (j := n) (rc := schoolbookCells ai b r i n)
      (by rw [schoolbookCells_length]; omega)
    rw [schoolbookCells_succ, ofDigits_take_succ]
    linear_combination hcell + ih (by omega)

/-! ### The outer loop -/

theorem schoolbookRow_length (a b r : List Nat) (i : Nat) : (schoolbookRow a b r i).length = r.length := by
  rw [schoolbookRow_eq, schoolbookCells_length]

/-- One row adds `A[i]` times the whole of `b`, at position `i`: the carry out of limb 7 and the limbs of `b` left out
are worth multiples of `2^128`. -/
theorem schoolbookRow_modEq (a b : List Nat) {r : List Nat} {i : Nat} (hr : r.length = 8) (hi : i < 8) :
    Nat.ofDigits 65536 (schoolbookRow a b r i) ≡
      Nat.ofDigits 65536 r + a.getD i 0 * 65536 ^ i * Nat.ofDigits 65536 b [MOD 65536 ^ 8] := by
  have hpos : i + (8 - i) = 8 := by omega
  have hexact := schoolbookCells_value (a.getD i 0) b (r := r) (i := i) (n := 8 - i) (by omega)
  have hlow : 65536 ^ i * Nat.ofDigits 65536 (b.take (8 - i)) ≡ 65536 ^ i * Nat.ofDigits 65536 b [MOD 65536 ^ 8] := by
    have hshift := (ofDigits_take_modEq 65536 b (8 - i)).mul_left' (65536 ^ i)
    rwa [← Nat.pow_add, hpos] at hshift
  rw [hpos] at hexact
  calc Nat.ofDigits 65536 (schoolbookRow a b r i)
      ≡ Nat.ofDigits 65536 (schoolbookRow a b r i) + (schoolbookCells (a.getD i 0) b r i (8 - i)).2 * 65536 ^ 8
        [MOD 65536 ^ 8] := by simp [Nat.ModEq]
    _ = Nat.ofDigits 65536 r + a.getD i 0 * (65536 ^ i * Nat.ofDigits 65536 (b.take (8 - i))) := by
        rw [schoolbookRow_eq, hexact, Nat.mul_assoc]
    _ ≡ Nat.ofDigits 65536 r + a.getD i 0 * (65536 ^ i * Nat.ofDigits 65536 b) [MOD 65536 ^ 8] :=
        (hlow.mul_left _).add_left _
    _ = Nat.ofDigits 65536 r + a.getD i 0 * 65536 ^ i * Nat.ofDigits 65536 b := by rw [Nat.mul_assoc]

/-- The result limbs after the rows `0..n-1`. -/
def schoolbookRows (a b : List Nat) (n : Nat) : List Nat :=
  (List.range n).foldl (schoolbookRow a b) (List.replicate 8 0)

theorem schoolbookRows_succ (a b : List Nat) (n : Nat) :
    schoolbookRows a b (n + 1) = schoolbookRow a b (schoolbookRows a b n) n := by
  rw [schoolbookRows, List.range_succ, List.foldl_concat, schoolbookRows]

theorem schoolbookMul_eq (a b : U128) :
    schoolbookMul a b = ofUintLimbs (schoolbookRows (uintLimbs a) (uintLimbs b) 8) := rfl

theorem schoolbookRows_length (a b : List Nat) (n : Nat) : (schoolbookRows a b n).length = 8 := by
  induction n with
  | zero => rfl
  | succ n ih => rw [schoolbookRows_succ, schoolbookRow_length, ih]

/-- `n` rows give the low `n` limbs of `a` times `b`, modulo `2^128`. -/
theorem schoolbookRows_modEq (a b : List Nat) {n : Nat} (hn : n ≤ 8) :
    Nat.ofDigits 65536 (schoolbookRows a b n) ≡
      Nat.ofDigits 65536 (a.take n) * Nat.ofDigits 65536 b [MOD 65536 ^ 8] := by
  induction n with
  | zero =>
    rw [schoolbookRows, List.range_zero, List.foldl_nil, Nat.ofDigits_replicate_zero, List.take_zero, Nat.ofDigits_nil,
      Nat.zero_mul]
  | succ n ih =>
    rw [schoolbookRows_succ, ofDigits_take_succ, Nat.add_mul]
    exact (schoolbookRow_modEq a b (schoolbookRows_length a b n) hn).trans ((ih (by omega)).add_right _)

/-! ### The product (R111) -/

theorem toNat_uMul (a b : U128) : (uMul a b).toNat = a.toNat * b.toNat % 2 ^ 128 := BitVec.toNat_mul a b

/-- The limb pseudocode gives the product modulo `2^128`. -/
theorem toNat_schoolbookMul (a b : U128) : (schoolbookMul a b).toNat = a.toNat * b.toNat % 2 ^ 128 := by
  have hrows := schoolbookRows_modEq (uintLimbs a) (uintLimbs b) (Nat.le_refl 8)
  have hall : (uintLimbs a).take 8 = uintLimbs a := rfl
  have hmodulus : 65536 ^ 8 = 2 ^ 128 := by norm_num
  rw [hall, ofDigits_uintLimbs, ofDigits_uintLimbs, hmodulus] at hrows
  rw [schoolbookMul_eq, toNat_ofUintLimbs, hrows]

/-- Settles O38: both are the product of the numbers modulo `2^128`. -/
theorem schoolbookMultiplyIsTheProduct : Obligations.SchoolbookMultiplyIsTheProduct := fun a b =>
  ⟨toNat_uMul a b, BitVec.eq_of_toNat_eq ((toNat_schoolbookMul a b).trans (toNat_uMul a b).symm)⟩

end Sys2Proof.Machine
end

section
/-! PROOFS. The commands of the integer unit (41_biguint128.md R114 to R117): what each does while XJE is unlocked, and
the word that UWL's immediate check refuses. -/

namespace Sys2Proof

/-- The word of a term that is not well-formed is refused for its immediate (30_encoding.md R76 item 5): UWL and SBWR
have such terms. -/
theorem decode_encode_illFormed {i : Instr} (h : i.wellFormed = false) : decode (encode i) = .error .immediateBits := by
  rw [decode, encode, fields_pack]
  cases i with
  | uwl | sbwr =>
    simp_all [decodeFields, Instr.fields, Instr.wellFormed, Fields.as, checkImm, unusedZero_iff, Format.usesRd,
      Format.usesRa, Format.usesRb, Format.usesIx, Format.usesImm]
  | _ => cases h

end Sys2Proof

namespace Sys2Proof.Machine

/-- UWL with a bit set in `imm[31:16]` has no well-formed word (41_biguint128.md R115). -/
theorem decode_uwl_immediateBits (r : UReg) (ix : Index) {imm : Data} (h : 65536 ≤ imm.toNat) :
    decode (word 0x21 r 0 0 ix.toNat imm.toNat) = .error .immediateBits := by
  have hwf : (Instr.uwl r ix imm).wellFormed = false :=
    Bool.eq_false_iff.mpr fun hok => Nat.not_lt.mpr h (uwlImmOk_iff.mp hok)
  have herror := decode_encode_illFormed hwf
  rw [encode_eq_word] at herror
  simpa [Instr.fields] using herror

/-! ### The commands while unlocked -/

section
variable {s : State} (hs : s.errcode = 0#8)
include hs

/-- UFROM32 (R114). -/
theorem exec_ufrom32 (rd : UReg) (imm : Data) :
    exec (.ufrom32 rd imm) s =
      .next { s with u := s.u.set rd (uFrom32 imm), responses := ⟨0#8, 0#32⟩ :: s.responses } :=
  whenUnlocked_unlocked hs _

/-- UMUL (R117). -/
theorem exec_umul (rd ra rb : UReg) :
    exec (.umul rd ra rb) s =
      .next { s with u := s.u.set rd (uMul s.u[ra] s.u[rb]), responses := ⟨0#8, 0#32⟩ :: s.responses } :=
  whenUnlocked_unlocked hs _

/-- UWL on a limb that exists (R115). -/
theorem exec_uwl (rd : UReg) {ix : Index} (hix : ix.toNat ≤ maxLimb) (imm : Data) :
    exec (.uwl rd ix imm) s =
      .next { s with
        u := s.u.set rd (setUintLimb s.u[rd] ix.toNat (immLimb imm))
        responses := ⟨0#8, 0#32⟩ :: s.responses } :=
  (whenUnlocked_unlocked hs _).trans (checkIndex_ok hix _ _)

/-- URL on a limb that exists (R116). -/
theorem exec_url (ra : UReg) {ix : Index} (hix : ix.toNat ≤ maxLimb) :
    exec (.url ra ix) s = .next (answered s 0#8 ((uintLimb s.u[ra] ix.toNat).setWidth 32)) :=
  (whenUnlocked_unlocked hs _).trans (checkIndex_ok hix _ _)

/-- UWL on a limb that does not exist (60_exceptions.md R243). -/
theorem exec_uwl_range (rd : UReg) {ix : Index} (hix : maxLimb < ix.toNat) (imm : Data) :
    exec (.uwl rd ix imm) s = .next (failed s 3#8 (BitVec.ofNat 32 ix.toNat)) :=
  (whenUnlocked_unlocked hs _).trans (checkIndex_out hix _ _)

/-- URL on a limb that does not exist (60_exceptions.md R243). -/
theorem exec_url_range (ra : UReg) {ix : Index} (hix : maxLimb < ix.toNat) :
    exec (.url ra ix) s = .next (failed s 3#8 (BitVec.ofNat 32 ix.toNat)) :=
  (whenUnlocked_unlocked hs _).trans (checkIndex_out hix _ _)

end

/-! ### The values -/

/-- `u_from32` keeps the number (R110). -/
theorem toNat_uFrom32 (v : Data) : (uFrom32 v).toNat = v.toNat := BitVec.toNat_setWidth_of_le (by decide)

/-- A limb as URL answers it, as a number (10_state.md R24). -/
theorem toNat_uintLimb_response (v : U128) (j : Nat) :
    ((uintLimb v j).setWidth 32 : Data).toNat = v.toNat / 2 ^ (16 * j) % 2 ^ 16 := by
  rw [BitVec.toNat_setWidth_of_le (by decide), uintLimb, BitVec.extractLsb'_toNat, Nat.shiftRight_eq_div_pow]

/-- UWL's new value bit by bit: the immediate's low half in limb `j`, the old value elsewhere (R115). -/
theorem getLsbD_setUintLimb_immLimb (v : U128) (j : Nat) (imm : Data) {k : Nat} (hk : k < 128) :
    (setUintLimb v j (immLimb imm)).getLsbD k =
      if 16 * j ≤ k ∧ k < 16 * j + 16 then imm.getLsbD (k - 16 * j) else v.getLsbD k := by
  rw [setUintLimb, getLsbD_replaceBits _ _ _ _ hk]
  split
  · next hin =>
    have hbit : k - 16 * j < 16 := by omega
    rw [immLimb, BitVec.getLsbD_extractLsb', decide_eq_true hbit, Bool.true_and, Nat.zero_add]
  · rfl

/-! ### The statements -/

/-- Settles O36: the words are rows of O17, and each command is its equation above. -/
theorem ufrom32UmulValues : Obligations.Ufrom32UmulValues := by
  intro rd ra rb imm
  obtain ⟨-, -, hinteger, -⟩ := decodeOfRowWords
  obtain ⟨hufrom32, -, -, humul⟩ := hinteger rd ra rb 0#4 imm
  exact ⟨hufrom32, humul, fun s hs =>
    ⟨⟨uFrom32 imm, toNat_uFrom32 imm, exec_ufrom32 hs rd imm⟩,
      uMul s.u[ra] s.u[rb], toNat_uMul _ _, exec_umul hs rd ra rb⟩⟩

/-- Settles O37: the words are rows of O17 or refused for the immediate, and the index is a limb's or not. -/
theorem integerLimbAccess : Obligations.IntegerLimbAccess := by
  intro r ix imm
  obtain ⟨-, -, hinteger, -⟩ := decodeOfRowWords
  obtain ⟨-, huwl, hurl, -⟩ := hinteger r r r ix imm
  refine ⟨huwl, decode_uwl_immediateBits r ix, hurl, fun s hs =>
    ⟨fun hix => ⟨fun _ => ?_, ?_⟩, fun hix => ⟨fun _ => ?_, ?_⟩⟩⟩
  · exact ⟨_, exec_uwl hs r hix imm, fun k hk => getLsbD_setUintLimb_immLimb _ _ imm hk⟩
  · exact ⟨_, toNat_uintLimb_response _ _, exec_url hs r hix⟩
  · exact exec_uwl_range hs r hix imm
  · exact exec_url_range hs r hix

end Sys2Proof.Machine
end

section
/-! PROOFS. The value functions of the polynomial unit by their coefficients, and the degree (42_gf2poly.md R130 to
R133). -/

namespace Sys2Proof.Machine

/-! ### Coefficients (R130 to R132) -/

theorem getLsbD_pAdd (x y : Poly) (k : Nat) : (pAdd x y).getLsbD k = (x.getLsbD k ^^ y.getLsbD k) :=
  BitVec.getLsbD_xor

theorem getLsbD_pShu (x : Poly) (n : Nat) {k : Nat} (hk : k < 256) :
    (pShu x n).getLsbD k = if n ≤ k then x.getLsbD (k - n) else false := by
  unfold pShu
  split
  · next hn => rw [BitVec.getLsbD_zero, if_neg (by omega)]
  · rw [BitVec.getLsbD_shiftLeft, decide_eq_true hk, Bool.true_and]
    by_cases hnk : n ≤ k
    · rw [if_pos hnk, decide_eq_false (Nat.not_lt.mpr hnk), Bool.not_false, Bool.true_and]
    · rw [if_neg hnk, decide_eq_true (Nat.not_le.mp hnk), Bool.not_true, Bool.false_and]

theorem getLsbD_pShd (x : Poly) (n k : Nat) : (pShd x n).getLsbD k = x.getLsbD (k + n) := by
  unfold pShd
  split
  · next hn => rw [BitVec.getLsbD_zero, BitVec.getLsbD_of_ge x (k + n) (by omega)]
  · rw [BitVec.getLsbD_ushiftRight, Nat.add_comm]

/-! ### The degree (R133) -/

theorem pDeg_zero : pDeg 0#256 = -1 := rfl

theorem pDeg_one : pDeg 1#256 = 0 := by decide

/-- The degree lies below `n` exactly when no coefficient from `n` on is set. -/
theorem pDeg_lt_iff {x : Poly} {n : Nat} : pDeg x < n ↔ ∀ k, n ≤ k → x.getLsbD k = false := by
  by_cases hx : x = 0#256
  · subst hx
    have hneg : pDeg 0#256 < n := by rw [pDeg_zero]; omega
    simp [hneg]
  · have hx' : x.toNat ≠ 0 := fun h => hx (BitVec.eq_of_toNat_eq h)
    rw [pDeg, if_neg hx, Int.ofNat_lt, Nat.log2_lt hx']
    exact ⟨fun h k hk => Nat.testBit_lt_two_pow (h.trans_le (Nat.pow_le_pow_right two_pos hk)),
      Nat.lt_pow_two_of_testBit _⟩

/-- The degree is the index of the highest set coefficient. -/
theorem pDeg_eq_iff {x : Poly} {d : Nat} :
    pDeg x = d ↔ x.getLsbD d = true ∧ ∀ k, d < k → x.getLsbD k = false := by
  refine ⟨fun h => ?_, fun ⟨hd, habove⟩ => pDeg_eq hd habove⟩
  have habove : ∀ k, d < k → x.getLsbD k = false := pDeg_lt_iff.mp (by omega)
  refine ⟨?_, habove⟩
  by_contra hd
  have hlt : pDeg x < d := pDeg_lt_iff.mpr fun k hk => by
    rcases hk.eq_or_lt with rfl | hk
    · exact Bool.eq_false_iff.mpr hd
    · exact habove k hk
  omega

theorem pDeg_le (x : Poly) : pDeg x ≤ 255 :=
  Int.lt_add_one_iff.mp (pDeg_lt_iff.mpr fun k hk => BitVec.getLsbD_of_ge x k hk)

/-- A nonzero polynomial has a degree that is a number. -/
theorem exists_pDeg_eq {x : Poly} (hx : x ≠ 0#256) : ∃ d : Nat, pDeg x = d := ⟨_, if_neg hx⟩

/-- Two polynomials of one degree lose it in their sum. -/
theorem pDeg_pAdd_lt {x y : Poly} {d : Nat} (hx : pDeg x = d) (hy : pDeg y = d) : pDeg (pAdd x y) < d := by
  obtain ⟨hxd, hxabove⟩ := pDeg_eq_iff.mp hx
  obtain ⟨hyd, hyabove⟩ := pDeg_eq_iff.mp hy
  refine pDeg_lt_iff.mpr fun k hk => ?_
  rw [getLsbD_pAdd]
  rcases hk.eq_or_lt with rfl | hk
  · rw [hxd, hyd, Bool.xor_self]
  · rw [hxabove k hk, hyabove k hk, Bool.xor_self]

/-- A shift inside the 256 coefficients adds to the degree. -/
theorem pDeg_pShu {x : Poly} {d n : Nat} (hx : pDeg x = d) (hn : d + n ≤ 255) : pDeg (pShu x n) = (d + n : Nat) := by
  obtain ⟨hd, habove⟩ := pDeg_eq_iff.mp hx
  refine pDeg_eq ?_ fun k hk => ?_
  · rw [getLsbD_pShu x n (by omega), if_pos (by omega), Nat.add_sub_cancel, hd]
  · by_cases h256 : k < 256
    · rw [getLsbD_pShu x n h256, if_pos (by omega), habove _ (by omega)]
    · exact BitVec.getLsbD_of_ge _ k (by omega)

/-- One step down undoes one step up that lost nothing. -/
theorem pShd_pShu_succ {x : Poly} {d n : Nat} (hx : pDeg x = d) (hn : d + (n + 1) ≤ 255) :
    pShd (pShu x (n + 1)) 1 = pShu x n := by
  obtain ⟨-, habove⟩ := pDeg_eq_iff.mp hx
  refine BitVec.eq_of_getLsbD_eq fun k hk => ?_
  rw [getLsbD_pShd, getLsbD_pShu x n hk]
  by_cases htop : k + 1 < 256
  · rw [getLsbD_pShu x _ htop]
    simp [Nat.add_sub_add_right]
  · rw [BitVec.getLsbD_of_ge _ _ (by omega), habove _ (by omega), ite_self]

end Sys2Proof.Machine
end

section
/-! PROOFS. Register values as true polynomials (00_scope.md R8): what the operations that lose no coefficient are
there, and what the degree is. -/

namespace Sys2Proof.Machine

/-! ### Coefficients in GF(2) -/

/-- A bit as an element of GF(2). -/
def gf2 (b : Bool) : ZMod 2 := if b then 1 else 0

theorem gf2_inj {a b : Bool} : gf2 a = gf2 b ↔ a = b := by revert a b; decide

theorem gf2_xor (a b : Bool) : gf2 (a ^^ b) = gf2 a + gf2 b := by revert a b; decide

theorem gf2_and (a b : Bool) : gf2 (a && b) = gf2 a * gf2 b := by revert a b; decide

/-- An XOR over `f 0, ..., f (n - 1)` is their sum in GF(2). -/
theorem gf2_foldl_xor (f : Nat → Bool) (n : Nat) :
    gf2 ((List.range n).foldl (fun b i => b ^^ f i) false) = ∑ i ∈ Finset.range n, gf2 (f i) := by
  induction n with
  | zero => rfl
  | succ n ih => rw [List.range_succ, List.foldl_concat, gf2_xor, ih, Finset.sum_range_succ]

/-- `coeff_toPoly` in these words. -/
theorem coeff_toPoly_eq_gf2 (x : Poly) (k : Nat) : (toPoly x).coeff k = gf2 (x.getLsbD k) := coeff_toPoly x k

theorem coeff_toPoly_eq_zero_iff {x : Poly} {k : Nat} : (toPoly x).coeff k = 0 ↔ x.getLsbD k = false := by
  rw [coeff_toPoly_eq_gf2]
  exact gf2_inj (b := false)

/-! ### The operations -/

theorem toPoly_injective : Function.Injective toPoly := fun x y h =>
  BitVec.eq_of_getLsbD_eq fun k _ => by
    rw [← gf2_inj, ← coeff_toPoly_eq_gf2, ← coeff_toPoly_eq_gf2, h]

@[simp] theorem toPoly_zero : toPoly 0#256 = 0 := by
  ext k
  rw [coeff_toPoly_eq_zero_iff.mpr BitVec.getLsbD_zero, Polynomial.coeff_zero]

@[simp] theorem toPoly_one : toPoly 1#256 = 1 := by
  ext k
  simp [coeff_toPoly, Polynomial.coeff_one, BitVec.getLsbD_one]

theorem toPoly_eq_zero_iff {x : Poly} : toPoly x = 0 ↔ x = 0#256 := by
  rw [← toPoly_zero, toPoly_injective.eq_iff]

@[simp] theorem toPoly_pAdd (x y : Poly) : toPoly (pAdd x y) = toPoly x + toPoly y := by
  ext k
  simp only [Polynomial.coeff_add, coeff_toPoly_eq_gf2, getLsbD_pAdd, gf2_xor]

/-- A shift inside the 256 coefficients is multiplication by `x^n` (R131). -/
theorem toPoly_pShu {x : Poly} {d n : Nat} (hx : pDeg x = d) (hn : d + n ≤ 255) :
    toPoly (pShu x n) = toPoly x * Polynomial.X ^ n := by
  obtain ⟨-, habove⟩ := pDeg_eq_iff.mp hx
  ext k
  rw [Polynomial.coeff_mul_X_pow', coeff_toPoly_eq_gf2, coeff_toPoly_eq_gf2]
  by_cases hk : k < 256
  · rw [getLsbD_pShu x n hk]
    split <;> rfl
  · rw [BitVec.getLsbD_of_ge _ k (by omega), if_pos (by omega), habove _ (by omega)]

/-! ### The degree -/

theorem degree_toPoly_lt_iff {x : Poly} {n : Nat} : (toPoly x).degree < n ↔ pDeg x < n := by
  simp only [Polynomial.degree_lt_iff_coeff_zero, pDeg_lt_iff, coeff_toPoly_eq_zero_iff]

theorem degree_toPoly {x : Poly} {d : Nat} (hx : pDeg x = d) : (toPoly x).degree = d := by
  obtain ⟨hd, habove⟩ := pDeg_eq_iff.mp hx
  refine Polynomial.degree_eq_of_le_of_coeff_ne_zero ?_ ?_
  · exact (Polynomial.degree_le_iff_coeff_zero _ _).mpr fun k hk =>
      coeff_toPoly_eq_zero_iff.mpr (habove k (WithBot.coe_lt_coe.mp hk))
  · rw [Ne, coeff_toPoly_eq_zero_iff, hd]
    decide

/-- A remainder is known by its degree and by what it leaves modulo `m`. -/
theorem toPoly_eq_mod {r m : Poly} {f : Polynomial (ZMod 2)} (hm : m ≠ 0#256) (hr : pDeg r < pDeg m)
    (h : toPoly r % toPoly m = f % toPoly m) : toPoly r = f % toPoly m := by
  obtain ⟨d, hd⟩ := exists_pDeg_eq hm
  rw [← h, Eq.comm, Polynomial.mod_eq_self_iff (toPoly_eq_zero_iff.not.mpr hm), degree_toPoly hd,
    degree_toPoly_lt_iff, ← hd]
  exact hr

end Sys2Proof.Machine
end

section
/-! PROOFS. The multiplier (42_gf2poly.md R134, R135, R138): the coefficients of the product below 256, and when those
are all it has. -/

namespace Sys2Proof.Machine

/-! ### Shift and add (R134) -/

/-- The accumulator of R134 after the positions `0..n-1` of `y`. -/
def pMulUpTo (x y : Poly) (n : Nat) : Poly := (List.range n).foldl (pMulStep x y) 0#256

theorem pMul_eq_pMulUpTo (x y : Poly) : pMul x y = pMulUpTo x y 256 := rfl

theorem pMulUpTo_zero (x y : Poly) : pMulUpTo x y 0 = 0#256 := rfl

theorem pMulUpTo_succ (x y : Poly) (n : Nat) :
    pMulUpTo x y (n + 1) = pMulStep x y (pMulUpTo x y n) n := by
  rw [pMulUpTo, List.range_succ, List.foldl_concat, pMulUpTo]

/-- One position adds `x` moved up by it, when its coefficient is set. -/
theorem getLsbD_pMulStep (x y r : Poly) (n : Nat) {k : Nat} (hk : k < 256) :
    (pMulStep x y r n).getLsbD k =
      (r.getLsbD k ^^ ((if n ≤ k then x.getLsbD (k - n) else false) && y.getLsbD n)) := by
  unfold pMulStep
  split
  · next hy => rw [getLsbD_pAdd, getLsbD_pShu x n hk, hy, Bool.and_true]
  · next hy => rw [Bool.eq_false_iff.mpr hy, Bool.and_false, Bool.xor_false]

/-- The positions beyond `k` leave coefficient `k` alone. -/
theorem getLsbD_pMulUpTo (x y : Poly) (n : Nat) {k : Nat} (hk : k < 256) :
    (pMulUpTo x y n).getLsbD k =
      (List.range (min n (k + 1))).foldl (fun b i => b ^^ (x.getLsbD (k - i) && y.getLsbD i)) false := by
  induction n with
  | zero => rw [pMulUpTo_zero, BitVec.getLsbD_zero, Nat.zero_min, List.range_zero, List.foldl_nil]
  | succ n ih =>
    rw [pMulUpTo_succ, getLsbD_pMulStep _ _ _ _ hk, ih]
    by_cases hn : n ≤ k
    · rw [if_pos hn, Nat.min_eq_left (by omega), Nat.min_eq_left (by omega), List.range_succ, List.foldl_concat]
    · rw [if_neg hn, Nat.min_eq_right (by omega), Nat.min_eq_right (by omega), Bool.false_and, Bool.xor_false]

theorem getLsbD_pMul (x y : Poly) {k : Nat} (hk : k < 256) :
    (pMul x y).getLsbD k =
      (List.range (k + 1)).foldl (fun b i => b ^^ (x.getLsbD (k - i) && y.getLsbD i)) false := by
  rw [pMul_eq_pMulUpTo, getLsbD_pMulUpTo x y 256 hk, Nat.min_eq_right (by omega)]

/-! ### The true product (R138) -/

/-- Below 256 the coefficients are those of the true product. -/
theorem coeff_toPoly_pMul (x y : Poly) {k : Nat} (hk : k < 256) :
    (toPoly (pMul x y)).coeff k = (toPoly x * toPoly y).coeff k := by
  rw [coeff_toPoly_eq_gf2, getLsbD_pMul x y hk, gf2_foldl_xor, mul_comm, Polynomial.coeff_mul,
    Finset.Nat.sum_antidiagonal_eq_sum_range_succ_mk]
  refine Finset.sum_congr rfl fun i _ => ?_
  rw [gf2_and, coeff_toPoly_eq_gf2, coeff_toPoly_eq_gf2, mul_comm]

/-- The product is exact when the true product has no coefficient beyond the register. -/
theorem toPoly_pMul_eq_mul_iff (x y : Poly) :
    toPoly (pMul x y) = toPoly x * toPoly y ↔ (toPoly x * toPoly y).degree < (256 : Nat) := by
  constructor
  · intro h
    rw [← h, degree_toPoly_lt_iff]
    exact Int.lt_add_one_iff.mpr (pDeg_le _)
  · intro h
    ext k
    by_cases hk : k < 256
    · exact coeff_toPoly_pMul x y hk
    · rw [coeff_toPoly_eq_zero_iff.mpr (BitVec.getLsbD_of_ge _ k (by omega)),
        (Polynomial.degree_lt_iff_coeff_zero _ 256).mp h k (by omega)]

/-- The degree of a product of register values. -/
theorem degree_mul_toPoly_lt_iff {x y : Poly} :
    (toPoly x * toPoly y).degree < (256 : Nat) ↔ x = 0#256 ∨ y = 0#256 ∨ pDeg x + pDeg y ≤ 255 := by
  have hzero : (0 : Polynomial (ZMod 2)).degree < (256 : Nat) :=
    Polynomial.degree_zero.trans_lt (WithBot.bot_lt_coe _)
  by_cases hx : x = 0#256
  · exact iff_of_true (by rwa [hx, toPoly_zero, zero_mul]) (.inl hx)
  by_cases hy : y = 0#256
  · exact iff_of_true (by rwa [hy, toPoly_zero, mul_zero]) (.inr (.inl hy))
  obtain ⟨dx, hdx⟩ := exists_pDeg_eq hx
  obtain ⟨dy, hdy⟩ := exists_pDeg_eq hy
  rw [Polynomial.degree_mul, degree_toPoly hdx, degree_toPoly hdy, ← Nat.cast_add, Nat.cast_lt, hdx, hdy]
  simp only [hx, hy, false_or]
  omega

theorem toPoly_pMul {x y : Poly} (h : x = 0#256 ∨ y = 0#256 ∨ pDeg x + pDeg y ≤ 255) :
    toPoly (pMul x y) = toPoly x * toPoly y :=
  (toPoly_pMul_eq_mul_iff x y).mpr (degree_mul_toPoly_lt_iff.mpr h)

/-- Settles O34: a square is a product of equal degrees. -/
theorem pmulIsTheTrueProduct : Obligations.PmulIsTheTrueProduct := by
  intro x y
  refine ⟨(toPoly_pMul_eq_mul_iff x y).trans degree_mul_toPoly_lt_iff, ?_⟩
  rw [pSqr, sq, toPoly_pMul_eq_mul_iff, degree_mul_toPoly_lt_iff]
  constructor
  · rintro (rfl | rfl | h)
    · decide
    · decide
    · omega
  · intro h
    exact .inr (.inr (by omega))

/-! ### Squares (R135) -/

/-- In characteristic 2 a square spreads the coefficients: Mathlib's `Polynomial.expand`. -/
theorem coeff_toPoly_pSqr (x : Poly) {k : Nat} (hk : k < 256) :
    (toPoly (pSqr x)).coeff k = (Polynomial.expand (ZMod 2) 2 (toPoly x)).coeff k := by
  rw [pSqr, coeff_toPoly_pMul x x hk, ← sq, ZMod.expand_card]

theorem getLsbD_pSqr_even (x : Poly) {k : Nat} (hk : k < 128) : (pSqr x).getLsbD (2 * k) = x.getLsbD k := by
  rw [← gf2_inj, ← coeff_toPoly_eq_gf2, ← coeff_toPoly_eq_gf2, coeff_toPoly_pSqr x (by omega),
    Polynomial.coeff_expand_mul' two_pos]

theorem getLsbD_pSqr_odd (x : Poly) {k : Nat} (hk : k < 128) : (pSqr x).getLsbD (2 * k + 1) = false := by
  rw [← coeff_toPoly_eq_zero_iff, coeff_toPoly_pSqr x (by omega), Polynomial.coeff_expand two_pos,
    if_neg (by omega)]

end Sys2Proof.Machine
end

section
/-! PROOFS. The reducer (42_gf2poly.md R136, R139): what its loop keeps, and that it leaves the remainder of true
polynomial division. -/

namespace Sys2Proof.Machine

/-- Adding a shifted modulus, no coefficient of it lost, changes nothing modulo `m`. -/
theorem toPoly_pAdd_pShu_mod {m : Poly} {d n : Nat} (hm : pDeg m = d) (hn : d + n ≤ 255) (x : Poly) :
    toPoly (pAdd x (pShu m n)) % toPoly m = toPoly x % toPoly m := by
  rw [toPoly_pAdd, toPoly_pShu hm hn, Polynomial.add_mod, EuclideanDomain.mod_eq_zero.mpr (dvd_mul_right _ _),
    add_zero]

/-- `r` is `x` reduced by `m`. -/
structure Reduces (x m r : Poly) : Prop where
  degree : pDeg r < pDeg m
  congr : toPoly r % toPoly m = toPoly x % toPoly m

/-- The loop of R136 with the modulus moved up by `n`: what it reduces has a lower degree than the moved modulus, so
`n` turns bring it below the modulus itself. -/
theorem pRedLoop_reduces {m : Poly} {d : Nat} (hm : pDeg m = d) {fuel n : Nat} {x : Poly} (hfuel : n ≤ fuel)
    (hn : d + n ≤ 255) (hx : pDeg x < (d + n : Nat)) : Reduces x m (pRedLoop d fuel (pShu m n) x) := by
  induction fuel generalizing n x with
  | zero =>
    obtain rfl : n = 0 := by omega
    exact ⟨hm ▸ hx, rfl⟩
  | succ fuel ih =>
    unfold pRedLoop
    split
    · next hge =>
      obtain ⟨n, rfl⟩ : ∃ j, n = j + 1 := ⟨n - 1, by omega⟩
      rw [pShd_pShu_succ hm hn]
      have hdeg : pDeg (pShu m n) = (d + n : Nat) := pDeg_pShu hm (by omega)
      split
      · next heq =>
        obtain ⟨hlow, hcongr⟩ := ih (by omega) (by omega) (pDeg_pAdd_lt (heq.trans hdeg) hdeg)
        exact ⟨hlow, hcongr.trans (toPoly_pAdd_pShu_mod hm (by omega) x)⟩
      · next hne => exact ih (by omega) (by omega) (by omega)
    · next hlt => exact ⟨by omega, rfl⟩

theorem pRed_reduces {m : Poly} (hm : m ≠ 0#256) (x : Poly) : Reduces x m (pRed x m) := by
  unfold pRed
  split
  · next hlt => exact ⟨hlt, rfl⟩
  · next hge =>
    obtain ⟨d, hd⟩ := exists_pDeg_eq hm
    have hle := pDeg_le x
    obtain ⟨n, hn⟩ : ∃ n : Nat, pDeg x = (d + n : Nat) := ⟨(pDeg x - d).toNat, by omega⟩
    have hshift : (pDeg x - pDeg m).toNat = n := by omega
    rw [hshift, hd]
    have hlt := pDeg_pAdd_lt hn (pDeg_pShu (n := n) hd (by omega))
    obtain ⟨hlow, hcongr⟩ := pRedLoop_reduces hd (fuel := 256) (by omega) (by omega) hlt
    exact ⟨hlow, hcongr.trans (toPoly_pAdd_pShu_mod hd (by omega) x)⟩

/-- `p_red` is the remainder (R139). -/
theorem toPoly_pRed {m : Poly} (hm : m ≠ 0#256) (x : Poly) : toPoly (pRed x m) = toPoly x % toPoly m := by
  obtain ⟨hlow, hcongr⟩ := pRed_reduces hm x
  exact toPoly_eq_mod hm hlow hcongr

theorem pRed_zero {m : Poly} (hm : m ≠ 0#256) : pRed 0#256 m = 0#256 := by
  rw [← toPoly_eq_zero_iff, toPoly_pRed hm, toPoly_zero, EuclideanDomain.zero_mod]

/-- Settles O35: a true product of `a` leaves no remainder. -/
theorem ringLaws : Obligations.RingLaws := by
  intro a b c
  refine ⟨BitVec.xor_comm a b, BitVec.xor_assoc a b c, fun ha hab => ?_⟩
  rw [← toPoly_eq_zero_iff, toPoly_pRed ha, toPoly_pMul (.inr hab)]
  exact EuclideanDomain.mod_eq_zero.mpr (dvd_mul_right _ _)

end Sys2Proof.Machine
end

section
/-! PROOFS. The power (42_gf2poly.md R137, R140): the square-and-multiply sequence, that inside the contract it keeps
the true power modulo `m`, and the exponents and the base for which it needs no contract. -/

namespace Sys2Proof.Machine

/-- One exponent bit, for the accumulator. -/
theorem pPowStep_fst (e : U128) (m : Poly) (a : Poly × Poly) (n : Nat) :
    (pPowStep e m a n).1 = if e.getLsbD n then pRed (pMul a.1 a.2) m else a.1 := rfl

/-- One exponent bit, for the running base, whatever the bit. -/
theorem pPowStep_snd (e : U128) (m : Poly) (a : Poly × Poly) (n : Nat) :
    (pPowStep e m a n).2 = pRed (pSqr a.2) m := rfl

/-- The accumulator and the running base of R137 after the exponent bits `0..n-1`. -/
def pPowUpTo (base : Poly) (e : U128) (m : Poly) (n : Nat) : Poly × Poly :=
  (List.range n).foldl (pPowStep e m) (1#256, base)

theorem pPow_eq_pPowUpTo (base : Poly) (e : U128) (m : Poly) : pPow base e m = (pPowUpTo base e m 128).1 := rfl

theorem pPowUpTo_zero (base : Poly) (e : U128) (m : Poly) : pPowUpTo base e m 0 = (1#256, base) := rfl

section
variable (base : Poly) (e : U128) (m : Poly) (n : Nat)

theorem pPowUpTo_succ : pPowUpTo base e m (n + 1) = pPowStep e m (pPowUpTo base e m n) n := by
  rw [pPowUpTo, List.range_succ, List.foldl_concat, pPowUpTo]

/-- The accumulator's recurrence (R137). -/
theorem pPowUpTo_succ_fst :
    (pPowUpTo base e m (n + 1)).1 =
      if e.getLsbD n then pRed (pMul (pPowUpTo base e m n).1 (pPowUpTo base e m n).2) m
      else (pPowUpTo base e m n).1 := by
  rw [pPowUpTo_succ, pPowStep_fst]

/-- The running base's recurrence (R137). -/
theorem pPowUpTo_succ_snd : (pPowUpTo base e m (n + 1)).2 = pRed (pSqr (pPowUpTo base e m n).2) m := by
  rw [pPowUpTo_succ, pPowStep_snd]

end

/-! ### Inside the contract (R140) -/

/-- Congruent factors have congruent products. -/
theorem mul_mod_congr {f f' g g' m : Polynomial (ZMod 2)} (hf : f % m = f' % m) (hg : g % m = g' % m) :
    f * g % m = f' * g' % m := by
  rw [Polynomial.mul_mod, hf, hg, ← Polynomial.mul_mod]

/-- What the pair holds after `n` exponent bits: reduced, and fit for an exact product, the powers of the base that
the bits so far name. -/
structure HoldsPowers (base : Poly) (e : U128) (m : Poly) (n : Nat) (a : Poly × Poly) : Prop where
  accDegree : pDeg a.1 < pDeg m
  baseDegree : pDeg a.2 ≤ 127
  acc : toPoly a.1 % toPoly m = toPoly base ^ (e.toNat % 2 ^ n) % toPoly m
  running : toPoly a.2 % toPoly m = toPoly base ^ 2 ^ n % toPoly m

section
variable {base : Poly} {e : U128} {m : Poly} {n : Nat} {a : Poly × Poly}

theorem HoldsPowers.start (hbase : pDeg base ≤ 127) (hm : 1 ≤ pDeg m) : HoldsPowers base e m 0 (1#256, base) where
  accDegree := pDeg_one ▸ hm
  baseDegree := hbase
  acc := by simp [Nat.mod_one]
  running := by simp

/-- One bit keeps it: no product on the way has a degree above 254. -/
theorem HoldsPowers.step (h : HoldsPowers base e m n a) (hm : m ≠ 0#256) (hm' : pDeg m ≤ 128) :
    HoldsPowers base e m (n + 1) (pPowStep e m a n) := by
  obtain ⟨hacc, hbase, haccPow, hbasePow⟩ := h
  have hmul : toPoly (pMul a.1 a.2) = toPoly a.1 * toPoly a.2 := toPoly_pMul (.inr (.inr (by omega)))
  have hsqr : toPoly (pSqr a.2) = toPoly a.2 * toPoly a.2 := toPoly_pMul (.inr (.inr (by omega)))
  obtain ⟨haccDegree, haccMod⟩ := pRed_reduces hm (pMul a.1 a.2)
  obtain ⟨hsqrDegree, hsqrMod⟩ := pRed_reduces hm (pSqr a.2)
  refine ⟨?_, ?_, ?_, ?_⟩
  · rw [pPowStep_fst]
    split
    · exact haccDegree
    · exact hacc
  · rw [pPowStep_snd]
    omega
  · rw [pPowStep_fst, Nat.mod_pow_succ, ← Nat.toNat_testBit, BitVec.testBit_toNat]
    by_cases hbit : e.getLsbD n = true
    · rw [if_pos hbit, hbit, Bool.toNat_true, mul_one, pow_add, haccMod, hmul]
      exact mul_mod_congr haccPow hbasePow
    · rw [if_neg hbit, Bool.eq_false_iff.mpr hbit, Bool.toNat_false, mul_zero, add_zero, haccPow]
  · rw [pPowStep_snd, hsqrMod, hsqr, pow_succ 2 n, mul_two, pow_add]
    exact mul_mod_congr hbasePow hbasePow

end

theorem pPowUpTo_holdsPowers {base m : Poly} (hm : m ≠ 0#256) (e : U128) (hbase : pDeg base ≤ 127)
    (hm1 : 1 ≤ pDeg m) (hm2 : pDeg m ≤ 128) (n : Nat) : HoldsPowers base e m n (pPowUpTo base e m n) := by
  induction n with
  | zero => exact .start hbase hm1
  | succ n ih => exact pPowUpTo_succ base e m n ▸ ih.step hm hm2

/-- Inside its contract `p_pow` is the power modulo `m`. -/
theorem toPoly_pPow {base m : Poly} (hm : m ≠ 0#256) (e : U128) (hbase : pDeg base ≤ 127) (hm1 : 1 ≤ pDeg m)
    (hm2 : pDeg m ≤ 128) : toPoly (pPow base e m) = toPoly base ^ e.toNat % toPoly m := by
  obtain ⟨hlow, -, hpow, -⟩ := pPowUpTo_holdsPowers hm e hbase hm1 hm2 128
  rw [Nat.mod_eq_of_lt e.isLt] at hpow
  exact toPoly_eq_mod hm hlow hpow

/-! ### Outside the contract (R140) -/

/-- Exponent bits that are not set leave the accumulator alone. -/
theorem pPowUpTo_fst_of_clear {base m : Poly} {e : U128} {k n : Nat} (hkn : k ≤ n)
    (he : ∀ i, k ≤ i → e.getLsbD i = false) : (pPowUpTo base e m n).1 = (pPowUpTo base e m k).1 := by
  induction n, hkn using Nat.le_induction with
  | base => rfl
  | succ n hkn ih => rw [pPowUpTo_succ_fst, he n hkn, if_neg Bool.false_ne_true, ih]

theorem one_pMul (x : Poly) : pMul 1#256 x = x := by
  apply toPoly_injective
  have hle := pDeg_le x
  rw [toPoly_pMul (.inr (.inr (by rwa [pDeg_one, zero_add]))), toPoly_one, one_mul]

theorem pMul_zero (x : Poly) : pMul x 0#256 = 0#256 := by
  apply toPoly_injective
  rw [toPoly_pMul (.inr (.inl rfl)), toPoly_zero, mul_zero]

theorem pPow_exponent_zero (base m : Poly) : pPow base 0#128 m = 1#256 :=
  pPowUpTo_fst_of_clear (Nat.zero_le 128) fun _ _ => BitVec.getLsbD_zero

theorem pPow_exponent_one (base m : Poly) : pPow base 1#128 m = pRed base m := by
  have hclear : ∀ i, 1 ≤ i → (1#128).getLsbD i = false := fun i hi => by
    rw [BitVec.getLsbD_one, decide_eq_false (by omega : ¬ i = 0), Bool.and_false]
  rw [pPow_eq_pPowUpTo, pPowUpTo_fst_of_clear (k := 1) (by decide) hclear, pPowUpTo_succ_fst, pPowUpTo_zero,
    if_pos (by decide), one_pMul]

/-- The zero base stays zero. -/
theorem pPowUpTo_zero_base_snd {m : Poly} (hm : m ≠ 0#256) (e : U128) (n : Nat) :
    (pPowUpTo 0#256 e m n).2 = 0#256 := by
  induction n with
  | zero => rfl
  | succ n ih => rw [pPowUpTo_succ_snd, ih, pSqr, pMul_zero, pRed_zero hm]

/-- From the first set bit on the accumulator of the zero base is zero. -/
theorem pPowUpTo_zero_base_fst {m : Poly} (hm : m ≠ 0#256) {e : U128} {i n : Nat} (hi : e.getLsbD i = true)
    (hin : i + 1 ≤ n) : (pPowUpTo 0#256 e m n).1 = 0#256 := by
  have hset (n : Nat) : pRed (pMul (pPowUpTo 0#256 e m n).1 (pPowUpTo 0#256 e m n).2) m = 0#256 := by
    rw [pPowUpTo_zero_base_snd hm, pMul_zero, pRed_zero hm]
  induction n, hin using Nat.le_induction with
  | base => rw [pPowUpTo_succ_fst, if_pos hi, hset]
  | succ n _ ih => rw [pPowUpTo_succ_fst, hset, ih, ite_self]

theorem pPow_base_zero {m : Poly} (hm : m ≠ 0#256) {e : U128} (he : e ≠ 0#128) : pPow 0#256 e m = 0#256 := by
  obtain ⟨i, hi, hset⟩ : ∃ i < 128, e.getLsbD i = true := by
    by_contra hnone
    refine he (BitVec.eq_of_getLsbD_eq fun i hi => ?_)
    rw [BitVec.getLsbD_zero, Bool.eq_false_iff]
    exact fun hset => hnone ⟨i, hi, hset⟩
  exact pPowUpTo_zero_base_fst hm hset hi

/-- Settles O33. -/
theorem ppowIsTheTruePower : Obligations.PpowIsTheTruePower := fun base m e hm =>
  ⟨toPoly_pPow hm e, pPow_exponent_zero base m, pPow_exponent_one base m, pPow_base_zero hm⟩

end Sys2Proof.Machine
end

section
/-! PROOFS. The commands of the polynomial unit (42_gf2poly.md R141 to R153): what each does while XJE is unlocked.
PSETI and PSHU stand with the pseudo-commands. -/

namespace Sys2Proof.Machine

/-! ### The commands while unlocked -/

section
variable {s : State} (hs : s.errcode = 0#8)
include hs

/-- PCLR (R141). -/
theorem exec_pclr (rd : PReg) :
    exec (.pclr rd) s = .next { s with p := s.p.set rd 0#256, responses := ⟨0#8, 0#32⟩ :: s.responses } :=
  whenUnlocked_unlocked hs _

/-- PLDC (R143). -/
theorem exec_pldc (rd : PReg) :
    exec (.pldc rd) s =
      .next { s with p := s.p.set rd Config.params.charpoly, responses := ⟨0#8, 0#32⟩ :: s.responses } :=
  whenUnlocked_unlocked hs _

/-- PWL on a limb that exists (R144). -/
theorem exec_pwl (rd : PReg) {ix : Index} (hix : ix.toNat ≤ maxLimb) (imm : Data) :
    exec (.pwl rd ix imm) s =
      .next { s with
        p := s.p.set rd (setPolyLimb s.p[rd] ix.toNat imm)
        responses := ⟨0#8, 0#32⟩ :: s.responses } :=
  (whenUnlocked_unlocked hs _).trans (checkIndex_ok hix _ _)

/-- PWL on a limb that does not exist (60_exceptions.md R243). -/
theorem exec_pwl_range (rd : PReg) {ix : Index} (hix : maxLimb < ix.toNat) (imm : Data) :
    exec (.pwl rd ix imm) s = .next (failed s 3#8 (BitVec.ofNat 32 ix.toNat)) :=
  (whenUnlocked_unlocked hs _).trans (checkIndex_out hix _ _)

/-- PRL on a limb that exists (R145). -/
theorem exec_prl (ra : PReg) {ix : Index} (hix : ix.toNat ≤ maxLimb) :
    exec (.prl ra ix) s = .next (answered s 0#8 (polyLimb s.p[ra] ix.toNat)) :=
  (whenUnlocked_unlocked hs _).trans (checkIndex_ok hix _ _)

/-- PRL on a limb that does not exist (60_exceptions.md R243). -/
theorem exec_prl_range (ra : PReg) {ix : Index} (hix : maxLimb < ix.toNat) :
    exec (.prl ra ix) s = .next (failed s 3#8 (BitVec.ofNat 32 ix.toNat)) :=
  (whenUnlocked_unlocked hs _).trans (checkIndex_out hix _ _)

/-- PADD (R146). -/
theorem exec_padd (rd ra rb : PReg) :
    exec (.padd rd ra rb) s =
      .next { s with p := s.p.set rd (pAdd s.p[ra] s.p[rb]), responses := ⟨0#8, 0#32⟩ :: s.responses } :=
  whenUnlocked_unlocked hs _

/-- PSHD (R148). -/
theorem exec_pshd (rd ra : PReg) (imm : Data) :
    exec (.pshd rd ra imm) s =
      .next { s with p := s.p.set rd (pShd s.p[ra] imm.toNat), responses := ⟨0#8, 0#32⟩ :: s.responses } :=
  whenUnlocked_unlocked hs _

/-- PDEG (R149). -/
theorem exec_pdeg (ra : PReg) :
    exec (.pdeg ra) s = .next (answered s 0#8 (BitVec.ofInt 32 (pDeg s.p[ra]))) :=
  whenUnlocked_unlocked hs _

/-- PDEG of a polynomial whose degree is known. -/
theorem exec_pdeg_of_eq {ra : PReg} {d : Nat} (hd : pDeg s.p[ra] = d) :
    exec (.pdeg ra) s = .next (answered s 0#8 (BitVec.ofNat 32 d)) := by
  rw [exec_pdeg hs, hd, BitVec.ofInt_natCast]

/-- PMUL (R150). -/
theorem exec_pmul (rd ra rb : PReg) :
    exec (.pmul rd ra rb) s =
      .next { s with p := s.p.set rd (pMul s.p[ra] s.p[rb]), responses := ⟨0#8, 0#32⟩ :: s.responses } :=
  whenUnlocked_unlocked hs _

/-- PSQR (R151). -/
theorem exec_psqr (rd ra : PReg) :
    exec (.psqr rd ra) s =
      .next { s with p := s.p.set rd (pSqr s.p[ra]), responses := ⟨0#8, 0#32⟩ :: s.responses } :=
  whenUnlocked_unlocked hs _

/-- PRED by a modulus that is not zero (R152). -/
theorem exec_pred (rd ra : PReg) {rb : PReg} (hm : s.p[rb] ≠ 0#256) :
    exec (.pred rd ra rb) s =
      .next { s with p := s.p.set rd (pRed s.p[ra] s.p[rb]), responses := ⟨0#8, 0#32⟩ :: s.responses } :=
  (whenUnlocked_unlocked hs _).trans (if_neg hm)

/-- PRED by zero (60_exceptions.md R244). -/
theorem exec_pred_redzero (rd ra : PReg) {rb : PReg} (hm : s.p[rb] = 0#256) :
    exec (.pred rd ra rb) s = .next (failed s 4#8 0#32) :=
  (whenUnlocked_unlocked hs _).trans (if_pos hm)

/-- PPOW by a modulus that is not zero (R153). -/
theorem exec_ppow (rd ra : PReg) (rb : UReg) {ix : PReg} (hm : s.p[ix] ≠ 0#256) :
    exec (.ppow rd ra rb ix) s =
      .next { s with p := s.p.set rd (pPow s.p[ra] s.u[rb] s.p[ix]), responses := ⟨0#8, 0#32⟩ :: s.responses } :=
  (whenUnlocked_unlocked hs _).trans (if_neg hm)

/-- PPOW by zero (60_exceptions.md R244). -/
theorem exec_ppow_redzero (rd ra : PReg) (rb : UReg) {ix : PReg} (hm : s.p[ix] = 0#256) :
    exec (.ppow rd ra rb ix) s = .next (failed s 4#8 0#32) :=
  (whenUnlocked_unlocked hs _).trans (if_pos hm)

end

/-! ### The statements -/

/-- `CHARPOLY` has degree 128 (10_state.md R30). -/
theorem pDeg_charpoly : pDeg Config.params.charpoly = (128 : Nat) :=
  pDeg_eq Config.params_contract.top Config.params_contract.above

/-- Settles O25: the register just written is the one PDEG reads. -/
theorem pclrPsetiPldcLoadConstants : Obligations.PclrPsetiPldcLoadConstants := by
  intro rd imm
  refine ⟨?_, ?_, ?_, fun s hs => ⟨exec_pclr hs rd, ?_, _, rfl, exec_pldc hs rd, exec_pdeg_of_eq (d := 128) ?_ ?_⟩⟩
  · simpa [Instr.fields] using decode_word (i := .pclr rd) rfl
  · simpa [Instr.fields] using decode_word (i := .pseti rd imm) rfl
  · simpa [Instr.fields] using decode_word (i := .pldc rd) rfl
  · exact ⟨imm.setWidth 256, BitVec.toNat_setWidth_of_le (by decide), exec_pseti hs rd imm⟩
  · exact hs
  · simpa using pDeg_charpoly

/-- Settles O26: the index is a limb's or not. -/
theorem polynomialLimbAccess : Obligations.PolynomialLimbAccess := by
  intro r ix imm
  refine ⟨?_, ?_, fun s hs => ⟨fun hix => ⟨?_, ?_⟩, fun hix => ⟨?_, ?_⟩⟩⟩
  · simpa [Instr.fields] using decode_word (i := .pwl r ix imm) rfl
  · simpa [Instr.fields] using decode_word (i := .prl r ix) rfl
  · exact ⟨_, exec_pwl hs r hix imm, fun k hk => getLsbD_replaceBits _ _ _ _ hk⟩
  · refine ⟨_, ?_, exec_prl hs r hix⟩
    rw [polyLimb, BitVec.extractLsb'_toNat, Nat.shiftRight_eq_div_pow]
  · exact exec_pwl_range hs r hix imm
  · exact exec_prl_range hs r hix

/-- Settles O27. -/
theorem paddAddsCoefficients : Obligations.PaddAddsCoefficients := by
  intro rd ra rb
  refine ⟨?_, fun s hs => ⟨_, exec_padd hs rd ra rb, fun k _ => getLsbD_pAdd _ _ k⟩⟩
  simpa [Instr.fields] using decode_word (i := .padd rd ra rb) rfl

/-- Settles O28: a coefficient beyond 255 reads as 0. -/
theorem shiftsMoveCoefficients : Obligations.ShiftsMoveCoefficients := by
  intro rd ra imm
  refine ⟨?_, ?_, fun s hs => ⟨?_, ?_⟩⟩
  · simpa [Instr.fields] using decode_word (i := .pshu rd ra imm) rfl
  · simpa [Instr.fields] using decode_word (i := .pshd rd ra imm) rfl
  · exact ⟨_, exec_pshu hs rd ra imm, fun k hk => getLsbD_pShu _ _ hk⟩
  · refine ⟨_, exec_pshd hs rd ra imm, fun k _ => ?_⟩
    rw [getLsbD_pShd]
    split
    · rfl
    · exact BitVec.getLsbD_of_ge _ _ (by omega)

/-- Settles O29. -/
theorem pdegFindsHighestCoefficient : Obligations.PdegFindsHighestCoefficient := by
  intro ra
  refine ⟨?_, fun s hs => ⟨fun hzero => ?_, fun k hk habove => exec_pdeg_of_eq hs (pDeg_eq hk habove)⟩⟩
  · simpa [Instr.fields] using decode_word (i := .pdeg ra) rfl
  · rw [exec_pdeg hs, hzero, pDeg_zero]
    rfl

/-- Settles O30: PMUL by its shift-and-add loop, PSQR by what a square in characteristic 2 is. -/
theorem pmulPsqrCoefficients : Obligations.PmulPsqrCoefficients := by
  intro rd ra rb
  refine ⟨?_, ?_, fun s hs => ⟨?_, ?_⟩⟩
  · simpa [Instr.fields] using decode_word (i := .pmul rd ra rb) rfl
  · simpa [Instr.fields] using decode_word (i := .psqr rd ra) rfl
  · exact ⟨_, exec_pmul hs rd ra rb, fun k hk => getLsbD_pMul _ _ hk⟩
  · exact ⟨_, exec_psqr hs rd ra, fun k hk => ⟨getLsbD_pSqr_even _ hk, getLsbD_pSqr_odd _ hk⟩⟩

/-- Settles O31. -/
theorem predLeavesTheRemainder : Obligations.PredLeavesTheRemainder := by
  intro rd ra rb
  refine ⟨?_, fun s hs => ⟨exec_pred_redzero hs rd ra, fun hm => ⟨_, exec_pred hs rd ra hm, toPoly_pRed hm _⟩⟩⟩
  simpa [Instr.fields] using decode_word (i := .pred rd ra rb) rfl

/-- Settles O32: the sequence is `pPowUpTo`. -/
theorem ppowSquaresAndMultiplies : Obligations.PpowSquaresAndMultiplies := by
  intro rd ra rb ix
  refine ⟨?_, fun s hs => ⟨exec_ppow_redzero hs rd ra rb, fun hm => ?_⟩⟩
  · simpa [Instr.fields] using decode_word (i := .ppow rd ra rb ix) rfl
  · exact ⟨fun n => (pPowUpTo s.p[ra] s.u[rb] s.p[ix] n).1, fun n => (pPowUpTo s.p[ra] s.u[rb] s.p[ix] n).2, rfl, rfl,
      fun n _ => ⟨pPowUpTo_succ_fst _ _ _ n, pPowUpTo_succ_snd _ _ _ n⟩, exec_ppow hs rd ra rb hm⟩

end Sys2Proof.Machine
end

section
/-! PROOFS. The hex codec's value functions (43_codec.md R170 to R173): the canonical text and its length, the number a
string writes, and how parsing ends. -/

namespace Sys2Proof.Machine

/-! ### The canonical text (R172) -/

/-- The model's digit character is the spec's (R172). -/
theorem hexChar_eq_digitByte {d : Nat} (h : d < 16) : hexChar d = digitByte d := by
  revert d
  decide

/-- The character of a digit is read as that digit. -/
theorem hexVal_hexChar {d : Nat} (h : d < 16) : hexVal (hexChar d) = some d := by
  revert d
  decide

@[simp] theorem toHex_length {w : Nat} (v : BitVec w) : (toHex v).length = hexLength v.toNat := by
  simp [toHex]

/-- Every character of a canonical text is a digit. -/
theorem hexVal_isSome_of_mem_toHex {w : Nat} (v : BitVec w) : ∀ c ∈ toHex v, (hexVal c).isSome := by
  intro c hc
  obtain ⟨k, -, rfl⟩ := List.mem_map.mp hc
  rw [hexVal_hexChar (Nat.mod_lt _ (by decide))]
  rfl

/-- A value has more than `n` hex digits exactly when it reaches `16^n`: a hex digit is four bits. -/
theorem lt_hexLength_iff {v n : Nat} (hv : v ≠ 0) : n < hexLength v ↔ 16 ^ n ≤ v := by
  rw [show 16 = 2 ^ 4 from rfl, ← pow_mul, ← Nat.le_log2 hv, hexLength]
  omega

/-- The digits are enough (R172). -/
theorem lt_pow_hexLength (v : Nat) : v < 16 ^ hexLength v := by
  rcases eq_or_ne v 0 with rfl | hv
  · decide
  · exact Nat.not_le.mp (mt (lt_hexLength_iff hv).mpr (lt_irrefl _))

/-- No leading zero: one digit fewer is not enough, unless there is one digit only (R172). -/
theorem hexLength_eq_one_or_pow_le (v : Nat) : hexLength v = 1 ∨ 16 ^ (hexLength v - 1) ≤ v := by
  rcases eq_or_ne v 0 with rfl | hv
  · exact .inl rfl
  · exact .inr ((lt_hexLength_iff hv).mp (Nat.sub_lt (Nat.succ_pos _) Nat.one_pos))

/-- What the buffer holds after a canonical text is written at address 0 (R179; 20_memory.md R60). -/
theorem holdsText_writeText {w : Nat} (m : Memory) (v : BitVec w) :
    holdsText m (Memory.writeText 0 (toHex v) m) v.toNat (toHex v).length := by
  rw [toHex_length]
  refine ⟨Nat.succ_pos _, lt_pow_hexLength _, hexLength_eq_one_or_pow_le _, fun k hk => ?_, fun k hk => ?_⟩
  · simpa [Memory.read_writeText, hk, toHex] using hexChar_eq_digitByte (Nat.mod_lt _ (by decide))
  · simp [Memory.read_writeText, Nat.not_lt.mpr hk]

/-! ### The number a text writes (R171) -/

/-- The number of a text given by position, as the sum of its digits at their places. -/
theorem hexNumber_map_range (f : Nat → Byte) (n : Nat) :
    hexNumber ((List.range n).map f) = ∑ k ∈ Finset.range n, (hexVal (f k)).getD 0 * 16 ^ (n - 1 - k) := by
  induction n with
  | zero => rfl
  | succ n ih =>
    have hplace {k : Nat} (hk : k ∈ Finset.range n) : 16 ^ (n - 1 - k) * 16 = 16 ^ (n + 1 - 1 - k) := by
      rw [← pow_succ]
      congr 1
      have := Finset.mem_range.mp hk
      omega
    rw [List.range_succ, List.map_append, List.map_singleton, hexNumber_append, List.length_singleton, pow_one, ih,
      Finset.sum_range_succ, Finset.sum_mul]
    congr 1
    · exact Finset.sum_congr rfl fun k hk => by rw [mul_assoc, hplace hk]
    · simp [hexNumber]

/-- The last `n` digits of a number, summed at their places. -/
theorem sum_digits_eq_mod (b v n : Nat) : ∑ k ∈ Finset.range n, v / b ^ k % b * b ^ k = v % b ^ n := by
  induction n with
  | zero => simp [Nat.mod_one]
  | succ n ih => rw [Finset.sum_range_succ, ih, Nat.mod_pow_succ, mul_comm]

/-- The canonical text of a value writes the value. -/
theorem hexNumber_toHex {w : Nat} (v : BitVec w) : hexNumber (toHex v) = v.toNat := by
  rw [toHex, hexNumber_map_range]
  simp only [hexVal_hexChar (Nat.mod_lt _ (by decide : 16 > 0)), Option.getD_some]
  rw [Finset.sum_range_reflect (fun k => v.toNat / 16 ^ k % 16 * 16 ^ k), sum_digits_eq_mod]
  exact Nat.mod_eq_of_lt (lt_pow_hexLength _)

/-- Parsing undoes formatting (R173). -/
theorem parseHex_toHex {w : Nat} (v : BitVec w) : parseHex w (toHex v) = .ok v := by
  rw [parseHex_eq_hexNumber w (hexVal_isSome_of_mem_toHex v), hexNumber_toHex, BitVec.ofNat_toNat, BitVec.setWidth_eq]

/-! ### The string of a state -/

/-- The number the string writes is that of its characters. -/
theorem hexNumber_str (s : State) : hexNumber s.str = stringNumber s := by
  rw [State.str, hexNumber_map_range]
  simp only [hexVal_eq_digitValue, stringNumber]

/-- A string of hex digits parses to its number modulo `2^W` (R171). -/
theorem parseHex_str_of_allHex {s : State} (h : allHex s) (w : Nat) :
    parseHex w s.str = .ok (BitVec.ofNat w (stringNumber s)) := by
  rw [← hexNumber_str]
  refine parseHex_eq_hexNumber w fun c hc => ?_
  obtain ⟨k, hk, rfl⟩ := List.mem_map.mp hc
  rw [hexVal_eq_digitValue]
  exact h k (List.mem_range.mp hk)

/-- The loop of R171 stops at the first character that is no digit. -/
theorem parseHexFrom_of_firstBad {w : Nat} {t : Text} {p : Nat} (hp : p < t.length) (hbad : hexVal t[p] = none)
    (hgood : ∀ j (hj : j < p), (hexVal t[j]).isSome) (k : Nat) (v : BitVec w) :
    parseHexFrom w k v t = .error (k + p) := by
  induction t generalizing p k v with
  | nil => cases hp
  | cons c t ih =>
    cases p with
    | zero =>
      have hc : hexVal c = none := hbad
      simp [parseHexFrom, hc]
    | succ p =>
      obtain ⟨d, hd⟩ := Option.isSome_iff_exists.mp (hgood 0 p.succ_pos)
      have hc : hexVal c = some d := hd
      simp only [parseHexFrom, hc]
      rw [ih (Nat.lt_of_succ_lt_succ hp) hbad (fun j hj => hgood (j + 1) (Nat.succ_lt_succ hj)), Nat.add_right_comm,
        Nat.add_assoc]

/-- Parsing reports the first offending position of the string, at any width (R171). -/
theorem parseHex_str_of_firstBad {s : State} {k : Nat} (h : firstBad s k) (w : Nat) :
    parseHex w s.str = .error k := by
  obtain ⟨hk, hbad, hgood⟩ := h
  rw [parseHex, parseHexFrom_of_firstBad (p := k) (by simpa using hk), Nat.zero_add]
  · rw [str_getElem, hexVal_eq_digitValue, hbad]
  · intro j hj
    rw [str_getElem, hexVal_eq_digitValue]
    exact hgood j hj

/-- A string that is not all digits has a first character that is none. -/
theorem exists_firstBad {s : State} (h : ¬ allHex s) : ∃ k, firstBad s k := by
  classical
  simp only [allHex, not_forall, Option.not_isSome_iff_eq_none] at h
  obtain ⟨hlt, hbad⟩ := Nat.find_spec h
  refine ⟨Nat.find h, hlt, hbad, fun j hj => ?_⟩
  by_contra hnone
  exact Nat.find_min h hj ⟨hj.trans hlt, Option.not_isSome_iff_eq_none.mp hnone⟩

/-- The string left by a formatting command parses to the register's value: the text fits `SLEN`. -/
theorem parseHex_str_putText_toHex {w : Nat} (hw : 0 < w) (hw' : w ≤ 256) (s : State) (v : BitVec w) :
    parseHex w (s.putText (toHex v)).str = .ok v := by
  have hlen := toHex_length_le v hw
  rw [str_putText s _ (by omega), parseHex_toHex]

end Sys2Proof.Machine
end

section
/-! PROOFS. The string buffer and codec commands (43_codec.md R173 to R181): what each does while XJE is unlocked. SBWR
and SLENW within their ranges stand with the pseudo-commands. -/

namespace Sys2Proof.Machine

/-! ### The immediate of SBWR (30_encoding.md R73, R76) -/

/-- SBWR's address as a number. -/
theorem toNat_immAddr (imm : Data) : (immAddr imm).toNat = imm.toNat / 65536 := by
  have himm := imm.isLt
  rw [immAddr, BitVec.extractLsb'_toNat, Nat.shiftRight_eq_div_pow]
  omega

/-- SBWR's byte as a number. -/
theorem immByte_eq (imm : Data) : immByte imm = BitVec.ofNat 8 (imm.toNat % 256) := by
  apply BitVec.eq_of_toNat_eq
  simp [immByte]

/-- SBWR with a bit set in `imm[15:8]` has no well-formed word (R174). -/
theorem decode_sbwr_immediateBits {imm : Data} (h : imm.toNat / 256 % 256 ≠ 0) :
    decode (word 0x30 0 0 0 0 imm.toNat) = .error .immediateBits := by
  have hwf : (Instr.sbwr imm).wellFormed = false := Bool.eq_false_iff.mpr (mt sbwrImmOk_iff.mp h)
  have herror := decode_encode_illFormed hwf
  rw [encode_eq_word] at herror
  simpa [Instr.fields] using herror

/-! ### The commands while unlocked -/

/-- A command that parses goes on with the value. -/
theorem withParsed_ok {w : Nat} {s : State} {v : BitVec w} (h : parseHex w s.str = .ok v) (k : BitVec w → Result) :
    withParsed w s k = k v := by
  rw [withParsed, h]

/-- A command that parses raises PARSE with the offending position (60_exceptions.md R241). -/
theorem withParsed_error {w : Nat} {s : State} {pos : Nat} (h : parseHex w s.str = .error pos)
    (k : BitVec w → Result) : withParsed w s k = .next (failed s 1#8 (BitVec.ofNat 32 pos)) := by
  rw [withParsed, h]
  rfl

section
variable {s : State} (hs : s.errcode = 0#8)
include hs

/-- SBWR on an address beyond the buffer (60_exceptions.md R243). -/
theorem exec_sbwr_range {imm : Data} (ha : sbBytes ≤ (immAddr imm).toNat) :
    exec (.sbwr imm) s = .next (failed s 3#8 ((immAddr imm).setWidth 32)) :=
  (whenUnlocked_unlocked hs _).trans (if_pos ha)

/-- SBRD on an address of the buffer (R175). -/
theorem exec_sbrd {imm : Data} (ha : imm.toNat < sbBytes) :
    exec (.sbrd imm) s = .next (answered s 0#8 ((s.sb.read imm.toNat).setWidth 32)) :=
  (whenUnlocked_unlocked hs _).trans (if_neg (Nat.not_le.mpr ha))

/-- SBRD on an address beyond the buffer (60_exceptions.md R243). -/
theorem exec_sbrd_range {imm : Data} (ha : sbBytes ≤ imm.toNat) :
    exec (.sbrd imm) s = .next (failed s 3#8 imm) :=
  (whenUnlocked_unlocked hs _).trans (if_pos ha)

/-- SLENW with a length beyond the buffer (60_exceptions.md R243). -/
theorem exec_slenw_range {imm : Data} (hn : sbBytes < imm.toNat) :
    exec (.slenw imm) s = .next (failed s 3#8 imm) :=
  (whenUnlocked_unlocked hs _).trans (if_pos hn)

/-- SLENR (R177). -/
theorem exec_slenr : exec .slenr s = .next (answered s 0#8 (s.slen.setWidth 32)) :=
  whenUnlocked_unlocked hs _

/-- UPARSE of a string that parses (R178). -/
theorem exec_uparse (rd : UReg) {v : U128} (hv : parseHex 128 s.str = .ok v) :
    exec (.uparse rd) s = .next { s with u := s.u.set rd v, responses := ⟨0#8, 0#32⟩ :: s.responses } :=
  (whenUnlocked_unlocked hs _).trans (withParsed_ok hv _)

/-- UPARSE of a string that does not parse (60_exceptions.md R241). -/
theorem exec_uparse_parse (rd : UReg) {pos : Nat} (hpos : parseHex 128 s.str = .error pos) :
    exec (.uparse rd) s = .next (failed s 1#8 (BitVec.ofNat 32 pos)) :=
  (whenUnlocked_unlocked hs _).trans (withParsed_error hpos _)

/-- PPARSE of a string that parses (R180). -/
theorem exec_pparse (rd : PReg) {v : Poly} (hv : parseHex 256 s.str = .ok v) :
    exec (.pparse rd) s = .next { s with p := s.p.set rd v, responses := ⟨0#8, 0#32⟩ :: s.responses } :=
  (whenUnlocked_unlocked hs _).trans (withParsed_ok hv _)

/-- PPARSE of a string that does not parse (60_exceptions.md R241). -/
theorem exec_pparse_parse (rd : PReg) {pos : Nat} (hpos : parseHex 256 s.str = .error pos) :
    exec (.pparse rd) s = .next (failed s 1#8 (BitVec.ofNat 32 pos)) :=
  (whenUnlocked_unlocked hs _).trans (withParsed_error hpos _)

/-- UFMT (R179). -/
theorem exec_ufmt (ra : UReg) :
    exec (.ufmt ra) s = .next ((s.putText (toHex s.u[ra])).answer 0#8 (BitVec.ofNat 32 (toHex s.u[ra]).length)) :=
  whenUnlocked_unlocked hs _

/-- PFMT (R181). -/
theorem exec_pfmt (ra : PReg) :
    exec (.pfmt ra) s = .next ((s.putText (toHex s.p[ra])).answer 0#8 (BitVec.ofNat 32 (toHex s.p[ra]).length)) :=
  whenUnlocked_unlocked hs _

end

/-! ### The statements -/

/-- Settles O39: the address is the buffer's or beyond it, and a write to it is read there and nowhere else. -/
theorem stringBufferAccess : Obligations.StringBufferAccess := by
  intro imm
  refine ⟨fun himm => ?_, decode_sbwr_immediateBits, ?_, fun s hs => ⟨fun _ ha => ?_, fun _ ha => ?_, fun ha => ?_,
    exec_sbrd_range hs⟩⟩
  · simpa [Instr.fields] using decode_word (i := .sbwr imm) (sbwrImmOk_iff.mpr himm)
  · simpa [Instr.fields] using decode_word (i := .sbrd imm) rfl
  · rw [← toNat_immAddr] at ha ⊢
    rw [← immByte_eq]
    exact ⟨_, exec_sbwr hs ha, Memory.read_write_same _ _ _, fun a => Memory.read_write_other _ _⟩
  · rw [← toNat_immAddr] at ha ⊢
    rw [BitVec.ofNat_toNat]
    exact exec_sbwr_range hs ha
  · rw [BitVec.ofNat_toNat]
    exact exec_sbrd hs ha

/-- Settles O40: a length up to 128 fits the 8 bits of `SLEN`. -/
theorem stringLengthAccess : Obligations.StringLengthAccess := by
  intro imm
  refine ⟨?_, ?_, fun s hs => ⟨fun hn => ⟨imm.setWidth 8, ?_, exec_slenw hs hn⟩, exec_slenw_range hs, _, ?_,
    exec_slenr hs⟩⟩
  · simpa [Instr.fields] using decode_word (i := .slenw imm) rfl
  · exact decode_word (i := .slenr) rfl
  · rw [BitVec.toNat_setWidth]
    omega
  · exact BitVec.toNat_setWidth_of_le (by decide)

/-- Settles O41: the string parses to its number at both widths, or to its first offending position. -/
theorem parseCommandsReadTheNumber : Obligations.ParseCommandsReadTheNumber := by
  refine ⟨fun rd => ?_, fun rd => ?_, fun s hs => ⟨fun hall => ⟨fun rd => ?_, fun rd => ?_⟩, fun hall => ?_⟩⟩
  · simpa [Instr.fields] using decode_word (i := .uparse rd) rfl
  · simpa [Instr.fields] using decode_word (i := .pparse rd) rfl
  · exact ⟨_, BitVec.toNat_ofNat _ _, exec_uparse hs rd (parseHex_str_of_allHex hall 128)⟩
  · exact ⟨_, BitVec.toNat_ofNat _ _, exec_pparse hs rd (parseHex_str_of_allHex hall 256)⟩
  · obtain ⟨k, hk⟩ := exists_firstBad hall
    exact ⟨k, hk, fun rd => exec_uparse_parse hs rd (parseHex_str_of_firstBad hk 128),
      fun rd => exec_pparse_parse hs rd (parseHex_str_of_firstBad hk 256)⟩

/-- Settles O42. -/
theorem formatCommandsWriteCanonicalText : Obligations.FormatCommandsWriteCanonicalText := by
  refine ⟨fun ra => ?_, fun ra => ?_, fun s hs => ⟨fun ra => ?_, fun ra => ?_⟩⟩
  · simpa [Instr.fields] using decode_word (i := .ufmt ra) rfl
  · simpa [Instr.fields] using decode_word (i := .pfmt ra) rfl
  · exact ⟨_, _, toHex_length_le s.u[ra] (by decide), holdsText_writeText _ _, exec_ufmt hs ra⟩
  · exact ⟨_, _, toHex_length_le s.p[ra] (by decide), holdsText_writeText _ _, exec_pfmt hs ra⟩

/-- Settles O43: the parsing command sees the text that the formatting command wrote, and is not locked. -/
theorem hexRoundTrip : Obligations.HexRoundTrip := by
  refine ⟨fun _ => parseHex_toHex, fun ra rd s t hs ht => ?_, fun ra rd s t hs ht => ?_⟩
  · cases (exec_ufmt hs ra).symm.trans ht
    exact exec_uparse (s := (s.putText _).answer _ _) hs rd (parseHex_str_putText_toHex (by decide) (by decide) s _)
  · cases (exec_pfmt hs ra).symm.trans ht
    exact exec_pparse (s := (s.putText _).answer _ _) hs rd (parseHex_str_putText_toHex (by decide) (by decide) s _)

end Sys2Proof.Machine
end

section
/-! PROOFS. The applicator (44_jump.md R202) for any function `T`: it sums the steps, it presents 256 states whatever
the polynomial, and a single coefficient `x^k` is `k` steps (R213). -/

namespace Sys2Proof.Machine

/-! ### The sum of the steps -/

/-- The XOR of `T^i(s)` over the set coefficients `i` of `poly` below `n`. -/
def sumOfStepsUpTo (T : Gen → Gen) (s : Gen) (poly : Poly) (n : Nat) : Gen :=
  (List.range n).foldl (fun r i => if poly.getLsbD i then r ^^^ T^[i] s else r) 0#128

section
variable (T : Gen → Gen) (s : Gen) (poly : Poly)

theorem sumOfSteps_eq_upTo : sumOfSteps T s poly = sumOfStepsUpTo T s poly 256 := rfl

/-- R201's operator is a sum of steps too. -/
theorem annihilator_eq_upTo (c : XjeParams) : c.annihilator s = sumOfStepsUpTo c.step s c.charpoly 129 := rfl

theorem sumOfStepsUpTo_zero : sumOfStepsUpTo T s poly 0 = 0#128 := rfl

theorem sumOfStepsUpTo_succ (n : Nat) :
    sumOfStepsUpTo T s poly (n + 1) =
      if poly.getLsbD n then sumOfStepsUpTo T s poly n ^^^ T^[n] s else sumOfStepsUpTo T s poly n := by
  rw [sumOfStepsUpTo, List.range_succ, List.foldl_concat, sumOfStepsUpTo]

end

/-- Coefficients that are not set add nothing. -/
theorem sumOfStepsUpTo_of_clear {T : Gen → Gen} {s : Gen} {poly : Poly} {k n : Nat} (hkn : k ≤ n)
    (hclear : ∀ i, k ≤ i → i < n → poly.getLsbD i = false) :
    sumOfStepsUpTo T s poly n = sumOfStepsUpTo T s poly k := by
  induction n, hkn using Nat.le_induction with
  | base => rfl
  | succ n hkn ih =>
    rw [sumOfStepsUpTo_succ, hclear n hkn n.lt_succ_self, if_neg Bool.false_ne_true,
      ih fun i hki hin => hclear i hki (Nat.lt_succ_of_lt hin)]

/-- The polynomial `x^k` alone is `k` steps, with no contract on `T` (R213). -/
theorem sumOfSteps_twoPow (T : Gen → Gen) (s : Gen) {k : Nat} (hk : k < 256) :
    sumOfSteps T s (BitVec.twoPow 256 k) = T^[k] s := by
  have hbit (i : Nat) : (BitVec.twoPow 256 k).getLsbD i = decide (k = i) := by
    rw [BitVec.getLsbD_twoPow, decide_eq_true hk, Bool.true_and]
  have hbelow : sumOfStepsUpTo T s (BitVec.twoPow 256 k) k = 0#128 :=
    sumOfStepsUpTo_of_clear (Nat.zero_le k) fun i _ hi => by rw [hbit, decide_eq_false (by omega)]
  have habove : ∀ i, k + 1 ≤ i → i < 256 → (BitVec.twoPow 256 k).getLsbD i = false := fun i hi _ => by
    rw [hbit, decide_eq_false (by omega)]
  rw [sumOfSteps_eq_upTo, sumOfStepsUpTo_of_clear hk habove, sumOfStepsUpTo_succ, hbelow, hbit,
    if_pos (decide_eq_true rfl), BitVec.zero_xor]

/-! ### The run (R202) -/

/-- The applicator after the positions `0..n-1`. -/
theorem foldl_applyStep (T : Gen → Gen) (gen : Gen) (poly : Poly) (n : Nat) :
    (List.range n).foldl (applyStep T poly) ⟨0#128, gen, []⟩ =
      ⟨sumOfStepsUpTo T gen poly n, T^[n] gen, (List.range n).reverse.map fun i => T^[i] gen⟩ := by
  induction n with
  | zero => rfl
  | succ n ih =>
    rw [List.range_succ, List.foldl_concat, ih, applyStep, sumOfStepsUpTo_succ, Function.iterate_succ_apply',
      List.reverse_concat, List.map_cons]

theorem applyRun_eq (T : Gen → Gen) (gen : Gen) (poly : Poly) :
    applyRun T gen poly = ⟨sumOfSteps T gen poly, T^[256] gen, presented T gen⟩ :=
  foldl_applyStep T gen poly 256

/-- Settles O48, by the loop of R202 position by position. -/
theorem applicatorSumsTheSteps : Obligations.ApplicatorSumsTheSteps := fun T gen poly =>
  ⟨by rw [gApply, applyRun_eq], by rw [applyRun_eq]⟩

theorem gApply_eq_sumOfSteps (T : Gen → Gen) (gen : Gen) (poly : Poly) : gApply T gen poly = sumOfSteps T gen poly :=
  (applicatorSumsTheSteps T gen poly).left

theorem presented_length (T : Gen → Gen) (s : Gen) : (presented T s).length = 256 := by
  rw [presented, List.length_map, List.length_reverse, List.length_range]

/-- One application, answered: `GEN` and `ACC` end equal, 256 states are presented, and nothing else changes (R209). -/
theorem answer_applyPoly (s : State) (T : Gen → Gen) (poly : Poly) (status : BitVec 8) (data : Data) :
    (s.applyPoly T poly).answer status data =
      { s with
        gen := sumOfSteps T s.gen poly
        acc := sumOfSteps T s.gen poly
        stepPort := presented T s.gen ++ s.stepPort
        responses := ⟨status, data⟩ :: s.responses } := by
  obtain ⟨hsum, hport⟩ := applicatorSumsTheSteps T s.gen poly
  simp only [State.applyPoly, State.writeAcc, State.writeGen, State.present, State.answer, hsum, hport]

end Sys2Proof.Machine
end

section
/-! PROOFS. The jump law (44_jump.md R203, R204). A generator state is a vector over GF(2) and a linear `T` an
endomorphism, so applying a polynomial is Mathlib's `Polynomial.aeval` at that endomorphism, and `CHARPOLY` is in its
kernel. -/

namespace Sys2Proof.Machine

/-! ### Generator states as vectors over GF(2) -/

/-- The space on which a linear `T` is an endomorphism. -/
abbrev GenVector : Type := Fin 128 → ZMod 2

theorem gf2_decide_eq_one (z : ZMod 2) : gf2 (decide (z = 1)) = z := by revert z; decide

/-- A generator state as the vector of its bits (10_state.md R25). -/
def genVector : Gen ≃ GenVector where
  toFun g i := gf2 (g.getLsbD i)
  invFun v := BitVec.ofFnLE fun i => decide (v i = 1)
  left_inv g := by
    refine BitVec.eq_of_getLsbD_eq fun i hi => ?_
    rw [BitVec.getLsbD_ofFnLE, dif_pos hi, ← gf2_inj, gf2_decide_eq_one]
  right_inv v := by
    funext i
    dsimp only
    rw [BitVec.getLsbD_ofFnLE, dif_pos i.isLt, gf2_decide_eq_one]

theorem genVector_apply (g : Gen) (i : Fin 128) : genVector g i = gf2 (g.getLsbD i) := rfl

theorem genVector_zero : genVector 0#128 = 0 := by
  funext i
  rw [genVector_apply, BitVec.getLsbD_zero]
  rfl

/-- XOR is addition of vectors. -/
theorem genVector_xor (a b : Gen) : genVector (a ^^^ b) = genVector a + genVector b := by
  funext i
  rw [Pi.add_apply, genVector_apply, genVector_apply, genVector_apply, BitVec.getLsbD_xor, gf2_xor]

theorem genVector_symm_add (v w : GenVector) :
    genVector.symm (v + w) = genVector.symm v ^^^ genVector.symm w := by
  rw [Equiv.symm_apply_eq, genVector_xor, Equiv.apply_symm_apply, Equiv.apply_symm_apply]

/-! ### A linear step operator -/

/-- A linear `T` (R200) on the vectors; over GF(2) additive is linear. -/
def stepEnd (T : Gen → Gen) (hT : ∀ a b, T (a ^^^ b) = T a ^^^ T b) : Module.End (ZMod 2) GenVector :=
  (AddMonoidHom.mk' (fun v => genVector (T (genVector.symm v))) fun v w => by
    rw [genVector_symm_add, hT, genVector_xor]).toZModLinearMap 2

section
variable {T : Gen → Gen} (hT : ∀ a b, T (a ^^^ b) = T a ^^^ T b)

theorem genVector_step (s : Gen) : genVector (T s) = stepEnd T hT (genVector s) :=
  congrArg (fun g => genVector (T g)) (genVector.symm_apply_apply s).symm

theorem genVector_iterate (n : Nat) (s : Gen) : genVector (T^[n] s) = (stepEnd T hT ^ n) (genVector s) := by
  rw [Module.End.pow_apply]
  exact Function.Semiconj.iterate_right (genVector_step hT) n s

theorem genVector_sumOfStepsUpTo (s : Gen) (p : Poly) (n : Nat) :
    genVector (sumOfStepsUpTo T s p n) =
      ∑ i ∈ Finset.range n, (toPoly p).coeff i • (stepEnd T hT ^ i) (genVector s) := by
  induction n with
  | zero => exact genVector_zero
  | succ n ih =>
    rw [sumOfStepsUpTo_succ, Finset.sum_range_succ, ← ih, coeff_toPoly, ← genVector_iterate hT]
    split
    · rw [genVector_xor, one_smul]
    · rw [zero_smul, add_zero]

/-- Summing the steps over the coefficients of `p` is applying `p(T)` (R202). -/
theorem genVector_sumOfStepsUpTo_eq_aeval (s : Gen) {p : Poly} {d : Nat} (hp : ∀ k, d < k → p.getLsbD k = false) :
    genVector (sumOfStepsUpTo T s p (d + 1)) = Polynomial.aeval (stepEnd T hT) (toPoly p) (genVector s) := by
  have hdeg : (toPoly p).natDegree < d + 1 := Nat.lt_succ_of_le <|
    Polynomial.natDegree_le_iff_coeff_eq_zero.mpr fun k hk => coeff_toPoly_eq_zero_iff.mpr (hp k hk)
  rw [genVector_sumOfStepsUpTo hT, Polynomial.aeval_eq_sum_range' hdeg, LinearMap.sum_apply]
  rfl

theorem genVector_gApply (s : Gen) (p : Poly) :
    genVector (gApply T s p) = Polynomial.aeval (stepEnd T hT) (toPoly p) (genVector s) := by
  rw [gApply_eq_sumOfSteps, sumOfSteps_eq_upTo]
  exact genVector_sumOfStepsUpTo_eq_aeval hT s (d := 255) fun k hk => BitVec.getLsbD_of_ge p k hk

end

end Sys2Proof.Machine

namespace Sys2Proof.XjeParams.Contract
open Sys2Proof.Machine

/-! ### The two contracts -/

section
variable {c : XjeParams} (hc : c.Contract)
include hc

/-- R30: `CHARPOLY` has degree 128. -/
theorem pDeg_charpoly : pDeg c.charpoly = (128 : Nat) := pDeg_eq hc.top hc.above

/-- R201: `CHARPOLY(T)` is the zero endomorphism. -/
theorem aeval_charpoly : Polynomial.aeval (stepEnd c.step hc.linear) (toPoly c.charpoly) = 0 := by
  refine LinearMap.ext fun v => ?_
  obtain ⟨s, rfl⟩ := genVector.surjective v
  rw [← genVector_sumOfStepsUpTo_eq_aeval hc.linear s hc.above, ← annihilator_eq_upTo, hc.annihilates]
  exact genVector_zero

/-- Polynomials congruent modulo `CHARPOLY` act alike. -/
theorem aeval_congr {f g : Polynomial (ZMod 2)} (h : toPoly c.charpoly ∣ f - g) :
    Polynomial.aeval (stepEnd c.step hc.linear) f = Polynomial.aeval (stepEnd c.step hc.linear) g := by
  obtain ⟨q, hq⟩ := h
  rw [← sub_eq_zero, ← map_sub, hq, map_mul, hc.aeval_charpoly, zero_mul]

/-- `x^N mod CHARPOLY` is `N` steps (R203). -/
theorem gApply_of_toPoly_eq {p : Poly} {N : Nat} (hp : toPoly p = Polynomial.X ^ N % toPoly c.charpoly) (s : Gen) :
    gApply c.step s p = c.step^[N] s := by
  have hcongr : toPoly c.charpoly ∣ toPoly p - Polynomial.X ^ N :=
    ⟨-(Polynomial.X ^ N / toPoly c.charpoly), by rw [hp, EuclideanDomain.mod_eq_sub_mul_div]; ring⟩
  apply genVector.injective
  rw [genVector_gApply hc.linear, hc.aeval_congr hcongr, genVector_iterate hc.linear, map_pow, Polynomial.aeval_X]

end

end Sys2Proof.XjeParams.Contract

namespace Sys2Proof.Machine

/-- Settles O53, by `p(T)` for a `p` read modulo `CHARPOLY`. -/
theorem jumpLaw : Obligations.JumpLaw := by
  intro c hc
  refine ⟨fun p q s h => ?_, fun _ _ s hp => hc.gApply_of_toPoly_eq hp s⟩
  apply genVector.injective
  rw [genVector_gApply hc.linear, genVector_gApply hc.linear, hc.aeval_congr h]

/-! ### The jump polynomial (R210) -/

/-- The value 2 is the polynomial "x". -/
theorem toPoly_two : toPoly 2#256 = Polynomial.X := by
  have htwo : 2#256 = pShu 1#256 1 := by decide
  rw [htwo, toPoly_pShu pDeg_one (by decide), toPoly_one, one_mul, pow_one]

theorem pDeg_two : pDeg 2#256 = 1 := by decide

section
variable {m : Poly} (hm : pDeg m = (128 : Nat))
include hm

theorem ne_zero_of_pDeg : m ≠ 0#256 := by
  rintro rfl
  rw [pDeg_zero] at hm
  omega

/-- `p_pow(2, e, m)` is `x^e mod m` for a modulus of degree 128: R140's contract is met. -/
theorem toPoly_pPow_two (e : U128) : toPoly (pPow 2#256 e m) = Polynomial.X ^ e.toNat % toPoly m := by
  rw [toPoly_pPow (ne_zero_of_pDeg hm) e (by rw [pDeg_two]; decide) (by omega) (by omega), toPoly_two]

/-- It is reduced. -/
theorem pDeg_pPow_two_lt (e : U128) : pDeg (pPow 2#256 e m) < 128 := by
  obtain ⟨hlow, -⟩ := pPowUpTo_holdsPowers (base := 2#256) (ne_zero_of_pDeg hm) e (by rw [pDeg_two]; decide)
    (by omega) (by omega) 128
  rwa [hm] at hlow

end

/-- Settles O54: steps add, `T^B(T^A(s)) = T^(A+B)(s)`. -/
theorem jumpsCompose : Obligations.JumpsCompose := by
  intro c hc A B s
  have hjump (e : U128) (s : Gen) : gApply c.step s (pPow 2#256 e c.charpoly) = c.step^[e.toNat] s :=
    hc.gApply_of_toPoly_eq (toPoly_pPow_two hc.pDeg_charpoly e) s
  refine ⟨?_, fun hsum => ?_⟩
  · rw [hjump, hjump, Nat.add_comm, Function.iterate_add_apply]
  · rw [hjump, BitVec.toNat_add, Nat.mod_eq_of_lt hsum]

end Sys2Proof.Machine
end

section
/-! PROOFS. The commands of the jump engine (44_jump.md R205 to R213): what each does while XJE is unlocked, and the
jump polynomial and its text. -/

namespace Sys2Proof.Machine

/-! ### The jump polynomial and its text (R210) -/

/-- The exponent `e` of R210. -/
theorem toNat_jumpExponent (imm : Data) (n : Nat) :
    (uMul (uFrom32 imm) (BitVec.ofNat 128 n)).toNat = imm.toNat * (n % 2 ^ 128) % 2 ^ 128 := by
  rw [toNat_uMul, toNat_uFrom32, BitVec.toNat_ofNat]

/-- Up to a degree of 127 the canonical text has at most 32 digits. -/
theorem toHex_length_le_of_pDeg_lt {x : Poly} (h : pDeg x < 128) : (toHex x).length ≤ 32 := by
  have hlt : x.toNat < 16 ^ 32 := Nat.lt_pow_two_of_testBit (n := 128) _ (pDeg_lt_iff.mp h)
  rw [toHex_length]
  rcases eq_or_ne x.toNat 0 with hzero | hne
  · rw [hzero]
    decide
  · exact Nat.not_lt.mp (mt (lt_hexLength_iff hne).mp (Nat.not_le.mpr hlt))

section
variable {c : XjeParams} (hc : pDeg c.charpoly = (128 : Nat)) (imm : Data)
include hc

/-- The jump polynomial is truly `x^e mod CHARPOLY` (R210). -/
theorem toPoly_jumpPoly (n : Nat) :
    toPoly (jumpPoly c imm (BitVec.ofNat 128 n)) =
      Polynomial.X ^ (imm.toNat * (n % 2 ^ 128) % 2 ^ 128) % toPoly c.charpoly := by
  rw [jumpPoly, toPoly_pPow_two hc, toNat_jumpExponent]

theorem toHex_jumpPoly_length_le (base : U128) : (toHex (jumpPoly c imm base)).length ≤ 32 :=
  toHex_length_le_of_pDeg_lt (pDeg_pPow_two_lt hc _)

/-- Exponent 1 (R213): the polynomial "x" is reduced already. -/
theorem jumpPoly_of_exponent_one {n : Nat} (he : imm.toNat * (n % 2 ^ 128) % 2 ^ 128 = 1) :
    jumpPoly c imm (BitVec.ofNat 128 n) = BitVec.twoPow 256 1 := by
  have hexp : uMul (uFrom32 imm) (BitVec.ofNat 128 n) = 1#128 :=
    BitVec.eq_of_toNat_eq ((toNat_jumpExponent imm n).trans he)
  rw [jumpPoly, hexp, pPow_exponent_one, pRed, if_pos (by rw [hc, pDeg_two]; decide)]
  decide

end

/-- Exponent 0 (R213). -/
theorem jumpPoly_of_exponent_zero (c : XjeParams) (imm : Data) {n : Nat}
    (he : imm.toNat * (n % 2 ^ 128) % 2 ^ 128 = 0) :
    jumpPoly c imm (BitVec.ofNat 128 n) = BitVec.twoPow 256 0 := by
  have hexp : uMul (uFrom32 imm) (BitVec.ofNat 128 n) = 0#128 :=
    BitVec.eq_of_toNat_eq ((toNat_jumpExponent imm n).trans he)
  rw [jumpPoly, hexp, pPow_exponent_zero]
  decide

/-! ### The commands while unlocked -/

section
variable {s : State} (hs : s.errcode = 0#8)
include hs

/-- GWW on a word that exists (R205). -/
theorem exec_gww {ix : Index} (hix : ix.toNat ≤ maxWord) (imm : Data) :
    exec (.gww ix imm) s =
      .next { s with gen := setGenWord s.gen ix.toNat imm, responses := ⟨0#8, 0#32⟩ :: s.responses } :=
  (whenUnlocked_unlocked hs _).trans (checkIndex_ok hix _ _)

/-- GWW on a word that does not exist (60_exceptions.md R243). -/
theorem exec_gww_range {ix : Index} (hix : maxWord < ix.toNat) (imm : Data) :
    exec (.gww ix imm) s = .next (failed s 3#8 (BitVec.ofNat 32 ix.toNat)) :=
  (whenUnlocked_unlocked hs _).trans (checkIndex_out hix _ _)

/-- GRW on a word that exists (R206). -/
theorem exec_grw {ix : Index} (hix : ix.toNat ≤ maxWord) :
    exec (.grw ix) s = .next (answered s 0#8 (genWord s.gen ix.toNat)) :=
  (whenUnlocked_unlocked hs _).trans (checkIndex_ok hix _ _)

/-- GRW on a word that does not exist (60_exceptions.md R243). -/
theorem exec_grw_range {ix : Index} (hix : maxWord < ix.toNat) :
    exec (.grw ix) s = .next (failed s 3#8 (BitVec.ofNat 32 ix.toNat)) :=
  (whenUnlocked_unlocked hs _).trans (checkIndex_out hix _ _)

/-- ARW on a word that exists (R207). -/
theorem exec_arw {ix : Index} (hix : ix.toNat ≤ maxWord) :
    exec (.arw ix) s = .next (answered s 0#8 (genWord s.acc ix.toNat)) :=
  (whenUnlocked_unlocked hs _).trans (checkIndex_ok hix _ _)

/-- ARW on a word that does not exist (60_exceptions.md R243). -/
theorem exec_arw_range {ix : Index} (hix : maxWord < ix.toNat) :
    exec (.arw ix) s = .next (failed s 3#8 (BitVec.ofNat 32 ix.toNat)) :=
  (whenUnlocked_unlocked hs _).trans (checkIndex_out hix _ _)

/-- GSTEP (R208). -/
theorem exec_gstep :
    exec .gstep s = .next { s with
      gen := Config.params.step s.gen, stepPort := s.gen :: s.stepPort, responses := ⟨0#8, 0#32⟩ :: s.responses } :=
  whenUnlocked_unlocked hs _

/-- GAPPLY (R209). -/
theorem exec_gapply (ra : PReg) :
    exec (.gapply ra) s = .next ((s.applyPoly Config.params.step s.p[ra]).answer 0#8 0#32) :=
  whenUnlocked_unlocked hs _

/-- JCOMP of a string that parses (R210). -/
theorem exec_jcomp (imm : Data) {base : U128} (hbase : parseHex 128 s.str = .ok base) :
    exec (.jcomp imm) s = .next ((s.putText (toHex (jumpPoly Config.params imm base))).answer 0#8
      (BitVec.ofNat 32 (toHex (jumpPoly Config.params imm base)).length)) :=
  (whenUnlocked_unlocked hs _).trans (withParsed_ok hbase _)

/-- JCOMP of a string that does not parse (60_exceptions.md R241). -/
theorem exec_jcomp_parse (imm : Data) {pos : Nat} (hpos : parseHex 128 s.str = .error pos) :
    exec (.jcomp imm) s = .next (failed s 1#8 (BitVec.ofNat 32 pos)) :=
  (whenUnlocked_unlocked hs _).trans (withParsed_error hpos _)

/-- JAPPLY of a string that parses (R211). -/
theorem exec_japply {jp : Poly} (hjp : parseHex 256 s.str = .ok jp) :
    exec .japply s = .next ((s.applyPoly Config.params.step jp).answer 0#8 0#32) :=
  (whenUnlocked_unlocked hs _).trans (withParsed_ok hjp _)

/-- JAPPLY of a string that does not parse (60_exceptions.md R241). -/
theorem exec_japply_parse {pos : Nat} (hpos : parseHex 256 s.str = .error pos) :
    exec .japply s = .next (failed s 1#8 (BitVec.ofNat 32 pos)) :=
  (whenUnlocked_unlocked hs _).trans (withParsed_error hpos _)

/-- JUMP of a string that parses, under any parameters (R212). -/
theorem jumpWith_ok (c : XjeParams) (imm : Data) {base : U128} (hbase : parseHex 128 s.str = .ok base) :
    jumpWith c imm s = .next
      (((s.putText (toHex (jumpPoly c imm base))).applyPoly c.step (jumpPoly c imm base)).answer 0#8 0#32) :=
  (whenUnlocked_unlocked hs _).trans (withParsed_ok hbase _)

/-- JUMP of a string that does not parse (60_exceptions.md R241). -/
theorem exec_jump_parse (imm : Data) {pos : Nat} (hpos : parseHex 128 s.str = .error pos) :
    exec (.jump imm) s = .next (failed s 1#8 (BitVec.ofNat 32 pos)) :=
  (whenUnlocked_unlocked hs _).trans (withParsed_error hpos _)

end

/-! ### The statements -/

/-- A word of a generator state as a number (10_state.md R25). -/
theorem toNat_genWord (g : Gen) (j : Nat) : (genWord g j).toNat = g.toNat / 2 ^ (32 * j) % 2 ^ 32 := by
  rw [genWord, BitVec.extractLsb'_toNat, Nat.shiftRight_eq_div_pow]

/-- Settles O46: the index is a word's or not. -/
theorem generatorWordAccess : Obligations.GeneratorWordAccess := by
  intro ix imm
  refine ⟨?_, ?_, ?_, fun s hs => ⟨fun hix => ⟨?_, ?_, ?_⟩, fun hix => ⟨?_, ?_, ?_⟩⟩⟩
  · exact decode_word (i := .gww ix imm) rfl
  · exact decode_word (i := .grw ix) rfl
  · exact decode_word (i := .arw ix) rfl
  · exact ⟨_, exec_gww hs hix imm, fun k hk => getLsbD_replaceBits _ _ _ _ hk⟩
  · exact ⟨_, toNat_genWord _ _, exec_grw hs hix⟩
  · exact ⟨_, toNat_genWord _ _, exec_arw hs hix⟩
  · exact exec_gww_range hs hix imm
  · exact exec_grw_range hs hix
  · exact exec_arw_range hs hix

/-- Settles O47. -/
theorem gstepAppliesT : Obligations.GstepAppliesT := ⟨decode_word (i := .gstep) rfl, fun _ => exec_gstep⟩

/-- Settles O49. -/
theorem gapplyAppliesTheRegister : Obligations.GapplyAppliesTheRegister := by
  intro ra
  refine ⟨?_, fun s hs => ?_⟩
  · simpa [Instr.fields] using decode_word (i := .gapply ra) rfl
  · rw [exec_gapply hs, answer_applyPoly]

/-- Settles O50: the string parses to its number modulo `2^128`, or to its first offending position. -/
theorem jcompComputesTheJumpPolynomial : Obligations.JcompComputesTheJumpPolynomial := by
  intro imm
  refine ⟨decode_word (i := .jcomp imm) rfl, fun s hs => ⟨fun hall => ?_, fun hall => ?_⟩⟩
  · exact ⟨_, _, _, toPoly_jumpPoly pDeg_charpoly imm (stringNumber s), toHex_jumpPoly_length_le pDeg_charpoly imm _,
      holdsText_writeText _ _, exec_jcomp hs imm (parseHex_str_of_allHex hall 128)⟩
  · obtain ⟨k, hk⟩ := exists_firstBad hall
    exact ⟨k, hk, exec_jcomp_parse hs imm (parseHex_str_of_firstBad hk 128)⟩

/-- Settles O51: the string parses to its number modulo `2^256`, or to its first offending position. -/
theorem japplyAppliesTheText : Obligations.JapplyAppliesTheText := by
  refine ⟨decode_word (i := .japply) rfl, fun s hs => ⟨fun hall => ?_, fun hall => ?_⟩⟩
  · refine ⟨_, BitVec.toNat_ofNat _ _, ?_⟩
    rw [exec_japply hs (parseHex_str_of_allHex hall 256), answer_applyPoly]
  · obtain ⟨k, hk⟩ := exists_firstBad hall
    exact ⟨k, hk, exec_japply_parse hs (parseHex_str_of_firstBad hk 256)⟩

/-- Settles O52: JCOMP's polynomial, to which the jump law applies. -/
theorem jumpStepsTheGenerator : Obligations.JumpStepsTheGenerator := by
  intro imm
  refine ⟨decode_word (i := .jump imm) rfl, fun s hs => ⟨fun hall => ?_, fun hall => ?_⟩⟩
  · have hjp := toPoly_jumpPoly pDeg_charpoly imm (stringNumber s)
    refine ⟨_, _, _, _, rfl, hjp, toHex_jumpPoly_length_le pDeg_charpoly imm _, holdsText_writeText s.sb _, ?_⟩
    rw [← Config.params_contract.gApply_of_toPoly_eq hjp, gApply_eq_sumOfSteps]
    refine (jumpWith_ok hs Config.params imm (parseHex_str_of_allHex hall 128)).trans ?_
    rw [answer_applyPoly]
    simp only [State.putText]
  · obtain ⟨k, hk⟩ := exists_firstBad hall
    exact ⟨k, hk, exec_jump_parse hs imm (parseHex_str_of_firstBad hk 128)⟩

/-- A jump whose polynomial is `x^k` alone with a text of one character `b`, under any parameters: `k` steps, that text,
and 256 states on the step port (R213). -/
theorem jumpWith_twoPow {s : State} (hs : s.errcode = 0#8) (hall : allHex s) {c : XjeParams} {imm : Data} {k : Nat}
    {b : Byte} (hk : k < 256) (hjp : jumpPoly c imm (BitVec.ofNat 128 (stringNumber s)) = BitVec.twoPow 256 k)
    (htext : toHex (BitVec.twoPow 256 k) = [b]) :
    ∃ t, jumpWith c imm s = .next t ∧ t.gen = c.step^[k] s.gen ∧ t.acc = c.step^[k] s.gen ∧ t.slen = 1#8 ∧
      t.sb.read 0 = b ∧ t.stepPort.length = s.stepPort.length + 256 := by
  refine ⟨_, jumpWith_ok hs c imm (parseHex_str_of_allHex hall 128), ?_⟩
  rw [hjp, htext, answer_applyPoly, sumOfSteps_twoPow _ _ hk]
  refine ⟨rfl, rfl, rfl, Memory.read_writeText [b] s.sb 0 0, ?_⟩
  rw [List.length_append, presented_length, Nat.add_comm]
  rfl

/-- Settles O55: with exponent 0 and 1 the jump polynomial is "1" and "x". -/
theorem jumpByZeroAndByOne : Obligations.JumpByZeroAndByOne := fun _ hc imm _ hs hall =>
  ⟨fun he => jumpWith_twoPow hs hall (k := 0) (by decide) (jumpPoly_of_exponent_zero _ imm he) (by decide),
    fun he => jumpWith_twoPow hs hall (k := 1) (by decide) (jumpPoly_of_exponent_one hc imm he) (by decide)⟩

end Sys2Proof.Machine
end

section
/-! PROOFS. Exceptions (60_exceptions.md): what a word that fails changes, which commands raise which error and with
what `ERRINFO`, how often `T` is stepped, and that no run stops or leaves the invariant. -/

namespace Sys2Proof.Machine

/-! ### How a word ends, by its response (R240) -/

/-- The response that stands newest is the only one given since `s`. -/
theorem response_unique {s t : State} {r r' : Response} (hr : t.responses = r :: s.responses)
    (hr' : t.responses = r' :: s.responses) : r = r' :=
  (List.cons.inj (hr.symm.trans hr')).left

/-- The three ways a word given in `s` can end in `t`: turned away, failing, or answered without error. -/
def WordEnds (s t : State) : Prop :=
  t = s.answer lockedStatus 0#32 ∨
  (s.errcode = 0#8 ∧ ∃ (e : Err) (info : Data), t = (s.latch e.code info).answer e.code 0#32) ∨
  ∃ d, t.responses = ⟨okStatus, d⟩ :: s.responses

theorem exec_wordEnds {i : Instr} {s t : State} (h : exec i s = .next t) : WordEnds s t := by
  rcases exec_ends h with ⟨_, _, ht⟩ | ⟨hs, e, info, ht, _⟩ | ⟨_, u, d, rfl, he⟩
  · exact .inl ht
  · exact .inr (.inl ⟨hs, e, info, ht⟩)
  · exact .inr (.inr ⟨d, congrArg (_ :: ·) he.responses⟩)

theorem illegal_wordEnds {cw : CmdWord} {s t : State} (h : illegal cw s = .next t) : WordEnds s t := by
  rcases illegal_cases h with ⟨_, ht⟩ | ⟨hs, ht⟩
  · exact .inl ht
  · exact .inr (.inl ⟨hs, .illegal, _, ht⟩)

/-- Everything a word can do, well-formed or not. -/
theorem issue_wordEnds {cw : CmdWord} {s t : State} (h : issue cw s = .next t) : WordEnds s t := by
  cases hd : decode cw with
  | ok i => exact exec_wordEnds (issue_of_ok hd s ▸ h)
  | error e => exact illegal_wordEnds (issue_of_error hd s ▸ h)

/-- Settles O7: a status from 1 to 4 is neither that of a word turned away nor that of one without error. -/
theorem failingWordChangesOnlyTheLatch : Obligations.FailingWordChangesOnlyTheLatch := by
  intro s t cw rest r hinput h hr hlow hhigh
  rw [step_command hinput] at h
  rcases issue_wordEnds h with rfl | ⟨hs, e, info, rfl⟩ | ⟨d, hd⟩
  · obtain rfl := response_unique (s := s) hr rfl
    exact absurd hhigh (by decide)
  · obtain rfl := response_unique (s := s) hr rfl
    exact ⟨hs, rfl, rfl⟩
  · obtain rfl := response_unique (s := s) hr hd
    exact absurd hlow (Nat.not_succ_le_zero 0)

/-! ### Traffic on the step port (R255) -/

/-- Settles O13: only a command that takes effect presents states, and its status alone is 0. -/
theorem stepPortTrafficOfEveryCommand : Obligations.StepPortTrafficOfEveryCommand := by
  intro i s t r h hr
  rcases exec_ends h with ⟨_, _, rfl⟩ | ⟨_, e, info, rfl, _⟩ | ⟨_, u, d, rfl, he⟩
  · obtain rfl := response_unique (s := s) hr rfl
    exact ⟨[], rfl, rfl⟩
  · obtain rfl := response_unique (s := s) hr rfl
    exact ⟨[], rfl, (if_neg (err_code_ne_zero e)).symm⟩
  · obtain rfl := response_unique (s := s) hr (congrArg (_ :: ·) he.responses)
    exact he.port

/-! ### RANGE (R243) -/

/-- SBWR on an address beyond the buffer, the address as a number. -/
theorem exec_sbwr_range_toNat {s : State} (hs : s.errcode = 0#8) {imm : Data} (ha : 128 ≤ imm.toNat / 65536) :
    exec (.sbwr imm) s = .next (failed s 3#8 (BitVec.ofNat 32 (imm.toNat / 65536))) := by
  rw [← toNat_immAddr] at ha ⊢
  rw [BitVec.ofNat_toNat]
  exact exec_sbwr_range hs ha

/-- Settles O9, command by command. -/
theorem rangeErrors : Obligations.RangeErrors := fun _ hs =>
  ⟨fun r _ imm hix => ⟨exec_pwl_range hs r hix imm, exec_prl_range hs r hix⟩,
    fun r _ imm hix => ⟨fun _ => exec_uwl_range hs r hix imm, exec_url_range hs r hix⟩,
    fun _ imm hix => ⟨exec_gww_range hs hix imm, exec_grw_range hs hix, exec_arw_range hs hix⟩,
    fun _ _ ha => exec_sbwr_range_toNat hs ha,
    fun _ ha => exec_sbrd_range hs ha,
    fun _ hn => exec_slenw_range hs hn⟩

/-! ### REDZERO (R244) -/

/-- A command that parses the string and then responds from a state whose latch is clear does not latch REDZERO: the one
error it raises is PARSE. -/
theorem errcode_ne_redzero_of_withParsed {w : Nat} {s t : State} {d : BitVec w → Data} {u : BitVec w → State}
    (hs : s.errcode = 0#8) (h : whenUnlocked s (withParsed w s fun v => respond (d v) (u v)) = .next t)
    (hu : ∀ v, (u v).errcode = 0#8) : t.errcode ≠ 4#8 := by
  rw [whenUnlocked_unlocked hs] at h
  rcases withParsed_cases h with ⟨_, _, _, rfl⟩ | ⟨v, _, hv⟩
  · exact err_code_injective.ne (a₁ := .parse) (a₂ := .redzero) (by decide)
  · cases hv
    rw [answer_errcode, hu]
    decide

/-- Settles O10: JCOMP and JUMP take their modulus from `CHARPOLY` and test none. -/
theorem redzeroErrors : Obligations.RedzeroErrors := by
  refine fun s hs => ⟨fun rd ra _ hm => exec_pred_redzero hs rd ra hm,
    fun rd ra rb _ hm => exec_ppow_redzero hs rd ra rb hm, ?_⟩
  rintro imm t (hjcomp | hjump)
  · exact errcode_ne_redzero_of_withParsed hs hjcomp fun _ => hs
  · exact errcode_ne_redzero_of_withParsed hs hjump fun _ => hs

/-! ### PARSE (R241) -/

/-- Settles O11: at both widths parsing stops at the first character that is no digit. -/
theorem parseErrors : Obligations.ParseErrors := by
  intro s k hs hk
  have h128 : parseHex 128 s.str = .error k := parseHex_str_of_firstBad hk 128
  have h256 : parseHex 256 s.str = .error k := parseHex_str_of_firstBad hk 256
  exact ⟨fun rd => exec_uparse_parse hs rd h128, fun rd => exec_pparse_parse hs rd h256,
    fun imm => exec_jcomp_parse hs imm h128, exec_japply_parse hs h256, fun imm => exec_jump_parse hs imm h128⟩

/-! ### Runs (R248, R258) -/

/-- Settles O3. -/
theorem idleHoldsState : Obligations.IdleHoldsState := by
  intro s hinput
  simp only [step, hinput]

/-- A run goes on from where its first step leads. -/
theorem run_succ_of_step {s t : State} (h : step s = .next t) (n : Nat) : core.run (n + 1) s = core.run n t := by
  have hstep : core.step s = .next t := h
  simp only [Host.Core.run, hstep]

/-- A step followed by a safe run is a safe run. -/
theorem SafeRun.of_step {n : Nat} {s t : State} (h : step s = .next t) (ht : SafeRun n t) : SafeRun (n + 1) s := by
  obtain ⟨v, hrun, hv⟩ := ht
  exact ⟨v, (run_succ_of_step h n).trans hrun, hv⟩

/-- Settles O23, by induction on the number of steps: every state has a next state, and it meets the invariant again. -/
theorem everyRunIsSafe : Obligations.EveryRunIsSafe := by
  intro n
  induction n with
  | zero => exact fun s hs => ⟨s, rfl, hs⟩
  | succ n ih =>
    intro s hs
    obtain ⟨t, ht⟩ := stepAlwaysAnswersNext s
    exact .of_step ht (ih t (stepKeepsInvariant s t hs ht))

end Sys2Proof.Machine
end

section
/-! PROOFS. The reset event (70_reset_and_hazards.md R270, R271): what it leaves is the reset state, whose zeroes
`resetIsAllZero` lists, but for the record of the ports. -/

namespace Sys2Proof.Machine

/-- The host's reset is one step: the reset event on the state with that input taken. -/
theorem step_reset {s : State} {rest : List HostInput} (h : s.input = .reset :: rest) :
    step s = .next (s.withInput rest).hostReset := by
  simp only [step, h]

/-- Settles O4: the architectural state after the event is that of `State.reset`, item by item. -/
theorem resetEventZeroesState : Obligations.ResetEventZeroesState := by
  intro s rest hinput
  obtain ⟨hp, hu, hgen, hacc, hsb, hslen, _, herrinfo⟩ := resetIsAllZero
  exact ⟨_, step_reset hinput, hp, hu, hgen, hacc, hsb, hslen, hostReset_errcode _, herrinfo,
    hostReset_input _, hostReset_responses _, hostReset_stepPort _⟩

end Sys2Proof.Machine
end

section
/-! PROOFS. Words and terms at the decoder's edge (30_encoding.md R76, section 7): the worked words, and the terms of
UWL and SBWR that no word decodes to, which run on the bits their commands read. -/

namespace Sys2Proof

/-- Settles O18: a word that decodes is the word of its command, and a refused one fails one check of its row. -/
theorem specExampleWords : Obligations.SpecExampleWords :=
  ⟨decodeOfEncode .gstep rfl, decodeOfEncode (.pclr 3) rfl, decodeOfEncode (.pdeg 2) rfl,
    decodeOfEncode (.grw 1#4) rfl, decodeOfEncode (.jump 3#32) rfl, decodeOfEncode (.psqr 1 2) rfl,
    decodeOfEncode (.pseti 3 0xB#32) rfl, decodeOfEncode (.url 2 0#4) rfl,
    decodeOfEncode (.gww 3#4 0x01234567#32) rfl, decodeOfEncode (.pred 4 2 3) rfl,
    decodeOfEncode (.pshu 1 0 255#32) rfl, decodeOfEncode (.pwl 5 7#4 0x80000000#32) rfl,
    decodeOfEncode (.ppow 2 0 2 1) rfl, decodeOfEncode (.sbwr 0x00010042#32) rfl, by decide, by decide⟩

end Sys2Proof

namespace Sys2Proof.Machine

/-! ### The bits of an immediate that UWL and SBWR read (R73) -/

/-- A mask that is all ones on a field keeps the field. -/
theorem extractLsb'_and_of_allOnes {start len : Nat} {m : Data} (hm : m.extractLsb' start len = BitVec.allOnes len)
    (imm : Data) : (imm &&& m).extractLsb' start len = imm.extractLsb' start len := by
  rw [BitVec.extractLsb'_and, hm, BitVec.and_allOnes]

/-- UWL does not read the bits of R76 item 5. -/
theorem immLimb_and (imm : Data) : immLimb (imm &&& 0x0000FFFF#32) = immLimb imm :=
  extractLsb'_and_of_allOnes rfl imm

/-- SBWR's address has none of the bits of R76 item 5. -/
theorem immAddr_and (imm : Data) : immAddr (imm &&& 0xFFFF00FF#32) = immAddr imm :=
  extractLsb'_and_of_allOnes rfl imm

/-- SBWR's byte has none of the bits of R76 item 5. -/
theorem immByte_and (imm : Data) : immByte (imm &&& 0xFFFF00FF#32) = immByte imm :=
  extractLsb'_and_of_allOnes rfl imm

/-- UWL reads nothing of its immediate but the limb, locked or not. -/
theorem exec_uwl_congr {imm imm' : Data} (h : immLimb imm = immLimb imm') (rd : UReg) (ix : Index) (s : State) :
    exec (.uwl rd ix imm) s = exec (.uwl rd ix imm') s := by
  simp only [exec, execUwl, h]

/-- SBWR reads nothing of its immediate but the address and the byte, locked or not. -/
theorem exec_sbwr_congr {imm imm' : Data} (haddr : immAddr imm = immAddr imm') (hbyte : immByte imm = immByte imm')
    (s : State) : exec (.sbwr imm) s = exec (.sbwr imm') s := by
  simp only [exec, execSbwr, haddr, hbyte]

/-- With the bits of R76 item 5 at zero, a term of UWL is well-formed. -/
theorem wellFormed_uwl_and (rd : UReg) (ix : Index) (imm : Data) :
    (Instr.uwl rd ix (imm &&& 0x0000FFFF#32)).wellFormed = true :=
  uwlImmOk_of_mask ((BitVec.and_assoc _ _ _).trans BitVec.and_zero)

/-- With the bits of R76 item 5 at zero, a term of SBWR is well-formed. -/
theorem wellFormed_sbwr_and (imm : Data) : (Instr.sbwr (imm &&& 0xFFFF00FF#32)).wellFormed = true :=
  sbwrImmOk_of_mask ((BitVec.and_assoc _ _ _).trans BitVec.and_zero)

/-- Settles O57: the mask clears the bits of item 5 and keeps every bit that the command reads. -/
theorem illFormedTermsRunWithoutTheExtraBits : Obligations.IllFormedTermsRunWithoutTheExtraBits := fun s =>
  ⟨fun r ix imm => ⟨wellFormed_uwl_and r ix imm, exec_uwl_congr (immLimb_and imm).symm r ix s⟩,
    fun imm => ⟨wellFormed_sbwr_and imm, exec_sbwr_congr (immAddr_and imm).symm (immByte_and imm).symm s⟩⟩

end Sys2Proof.Machine
end
